-- ==== Sys2Proof/Word.lean ====
section
/-! DEFINITION. The word types of TDA CORE (00_scope.md R5, R7): a byte, the 32-bit instruction word and
register view, and the 64-bit register, operand and address. Arithmetic on them is `BitVec`'s own, which
wraps modulo 2^width as R7 says. -/

namespace Sys2Proof

/-- One byte of memory. -/
abbrev Byte := BitVec 8

/-- An instruction word, or the 32-bit view of a register. -/
abbrev Word32 := BitVec 32

/-- A register, an ALU operand, an address. -/
abbrev Word64 := BitVec 64

end Sys2Proof
end

