-- ==== Sys2Proof/Syntax.lean ====
section
/-! DEFINITION. The instructions of TDA CORE: one constructor per row of spec/opcode_table.json (30_encoding.md R91).
Register operands are resolved registers (10_state.md R24); every other operand is the field of the encoding itself. -/

namespace Sys2Proof

/-- What a 5-bit register field denotes (10_state.md R24): a general register `x[0..30]`, or the stack pointer.
There is no 31st general register and no zero register (90_conflicts.md C1). -/
inductive Reg where
  /-- `GPR(i)`, `0 <= i <= 30`. -/
  | x (i : Fin 31)
  /-- `StackPointer`. -/
  | sp
deriving DecidableEq, Repr

/-- The nine instructions, in the table's order. Operands stand as: destination or data register, base or first
source, index or second source, then the other fields. -/
inductive Instr where
  /-- SUB_imm_X: `sub <Xd|SP>, <Xn|SP>, #imm12` (41_data_processing.md R150). -/
  | subImmX (rd rn : Reg) (imm12 : BitVec 12)
  /-- ADD_sreg_W: `add <Wd>, <Wn>, <Wm>{, shift #imm6}` (41_data_processing.md R151). -/
  | addSregW (rd rn rm : Reg) (shift : BitVec 2) (imm6 : BitVec 6)
  /-- LDR_uimm_W: `ldr <Wt>, [<Xn|SP>{, #4*imm12}]` (42_load_store.md R171). -/
  | ldrUimmW (rt rn : Reg) (imm12 : BitVec 12)
  /-- LDR_uimm_X: `ldr <Xt>, [<Xn|SP>{, #8*imm12}]` (42_load_store.md R172). -/
  | ldrUimmX (rt rn : Reg) (imm12 : BitVec 12)
  /-- LDRSW_uimm: `ldrsw <Xt>, [<Xn|SP>{, #4*imm12}]` (42_load_store.md R173). -/
  | ldrswUimm (rt rn : Reg) (imm12 : BitVec 12)
  /-- STR_uimm_W: `str <Wt>, [<Xn|SP>{, #4*imm12}]` (42_load_store.md R174). -/
  | strUimmW (rt rn : Reg) (imm12 : BitVec 12)
  /-- STR_uimm_X: `str <Xt>, [<Xn|SP>{, #8*imm12}]` (42_load_store.md R175). -/
  | strUimmX (rt rn : Reg) (imm12 : BitVec 12)
  /-- LDR_reg_W: `ldr <Wt>, [<Xn|SP>, <Rm>{, extend {#amount}}]` (42_load_store.md R176); `s` is the scale bit. -/
  | ldrRegW (rt rn rm : Reg) (option : BitVec 3) (s : Bool)
  /-- LDR_reg_X: as LDR_reg_W for a 64-bit register (42_load_store.md R177). -/
  | ldrRegX (rt rn rm : Reg) (option : BitVec 3) (s : Bool)
deriving DecidableEq, Repr

end Sys2Proof
end

