-- ==== Sys2Proof/WellFormed.lean ====
section
/-! DEFINITION. When an instruction term is one of the block's instructions: the constraints of the opcode table
(30_encoding.md R91, column "constraint"). A word whose constraint fails is a decode failure (R93). -/

namespace Sys2Proof

/-- 30_encoding.md R88: the shift field `11` is reserved for ADD. -/
def shiftAllowed (shift : BitVec 2) : Bool := shift != 0b11#2

/-- 30_encoding.md R88: an amount of 32 or more (`imm6[5] = 1`) is reserved in the 32-bit form. -/
def amountAllowed (imm6 : BitVec 6) : Bool := !imm6.getLsbD 5

/-- 30_encoding.md R89: the extend field with `option[1] = 0` is reserved. -/
def optionAllowed (option : BitVec 3) : Bool := option.getLsbD 1

/-- The constraint of the instruction's row. -/
def Instr.wf : Instr → Bool
  | .subImmX _ _ _ => true
  | .addSregW _ _ _ shift imm6 => shiftAllowed shift && amountAllowed imm6
  | .ldrUimmW _ _ _ => true
  | .ldrUimmX _ _ _ => true
  | .ldrswUimm _ _ _ => true
  | .strUimmW _ _ _ => true
  | .strUimmX _ _ _ => true
  | .ldrRegW _ _ _ option _ => optionAllowed option
  | .ldrRegX _ _ _ option _ => optionAllowed option

end Sys2Proof
end

