-- ==== Sys2Proof/Decode.lean ====
section
/-! DEFINITION. The decoder (30_encoding.md): group dispatch on `IR[28:25]` (R81), then exact mask matching in the
group's sub-decoder (R91, R92), then the row's constraint (R93). It is total, and rejects by name. After it stand
the encoder, the byte layout of a word (20_memory.md R52, R53), and the host's `decodeTableWord`.
The bit patterns are the spec's, which marks them as A64 general knowledge (log 16). -/

namespace Sys2Proof

/-! ### Group dispatch -/

/-- The six rows of the group table of 30_encoding.md R81. -/
inductive Group where
  /-- `100x`: data processing, immediate. -/
  | dpImm
  /-- `101x`: branches, exception generating and system instructions. -/
  | branchSystem
  /-- `x1x0`: loads and stores. -/
  | loadStore
  /-- `x101`: data processing, register. -/
  | dpReg
  /-- `x111`: scalar floating-point and Advanced SIMD. -/
  | fpSimd
  /-- `0000` to `0011`: reserved, unallocated, SVE. -/
  | reserved
deriving DecidableEq, Repr

/-- The group that `op0 = IR[28:25]` selects (30_encoding.md R81). -/
def groupOf (op0 : BitVec 4) : Group :=
  if op0.extractLsb' 1 3 = 0b100#3 then .dpImm
  else if op0.extractLsb' 1 3 = 0b101#3 then .branchSystem
  else if op0.getLsbD 2 && !op0.getLsbD 0 then .loadStore
  else if op0.extractLsb' 0 3 = 0b101#3 then .dpReg
  else if op0.extractLsb' 0 3 = 0b111#3 then .fpSimd
  else .reserved

/-- The field `op0` of an instruction word. -/
def op0Of (w : Word32) : BitVec 4 := w.extractLsb' 25 4

/-! ### Fields -/

/-- 10_state.md R24: field value 31 is the stack pointer, 0 to 30 are the general registers. -/
def resolve (f : BitVec 5) : Reg :=
  if h : f.toNat < 31 then .x ⟨f.toNat, h⟩ else .sp

/-- The field value that denotes a register. -/
def regField : Reg → BitVec 5
  | .x i => BitVec.ofNat 5 i.val
  | .sp => 31#5

/-- `Rd` and `Rt`: `IR[4:0]` (30_encoding.md R90). -/
def fieldRd (w : Word32) : Reg := resolve (w.extractLsb' 0 5)

/-- `Rn`: `IR[9:5]` (30_encoding.md R90). -/
def fieldRn (w : Word32) : Reg := resolve (w.extractLsb' 5 5)

/-- `Rm`: `IR[20:16]` (30_encoding.md R90). -/
def fieldRm (w : Word32) : Reg := resolve (w.extractLsb' 16 5)

/-- `imm12`: `IR[21:10]` (30_encoding.md R83, R85). -/
def fieldImm12 (w : Word32) : BitVec 12 := w.extractLsb' 10 12

/-- `imm6`: `IR[15:10]` (30_encoding.md R84). -/
def fieldImm6 (w : Word32) : BitVec 6 := w.extractLsb' 10 6

/-- `shift`: `IR[23:22]` (30_encoding.md R84). -/
def fieldShift (w : Word32) : BitVec 2 := w.extractLsb' 22 2

/-- `option`: `IR[15:13]` (30_encoding.md R86). -/
def fieldOption (w : Word32) : BitVec 3 := w.extractLsb' 13 3

/-- `S`: `IR[12]` (30_encoding.md R86). -/
def fieldS (w : Word32) : Bool := w.getLsbD 12

/-! ### Rows and sub-decoders -/

/-- One row of the opcode map (30_encoding.md R91): the word is the row's when `IR & mask = value`, and `build`
reads its fields. -/
structure Row where
  mask : Word32
  value : Word32
  build : Word32 → Instr

/-- `IR & mask = match`. -/
def Row.hits (r : Row) (w : Word32) : Bool := w &&& r.mask == r.value

/-- Row 1. -/
def rowSubImmX : Row :=
  ⟨0xFFC00000#32, 0xD1000000#32, fun w => .subImmX (fieldRd w) (fieldRn w) (fieldImm12 w)⟩

/-- Row 2. -/
def rowAddSregW : Row :=
  ⟨0xFF200000#32, 0x0B000000#32,
    fun w => .addSregW (fieldRd w) (fieldRn w) (fieldRm w) (fieldShift w) (fieldImm6 w)⟩

/-- Row 3. -/
def rowLdrUimmW : Row :=
  ⟨0xFFC00000#32, 0xB9400000#32, fun w => .ldrUimmW (fieldRd w) (fieldRn w) (fieldImm12 w)⟩

/-- Row 4. -/
def rowLdrUimmX : Row :=
  ⟨0xFFC00000#32, 0xF9400000#32, fun w => .ldrUimmX (fieldRd w) (fieldRn w) (fieldImm12 w)⟩

/-- Row 5. -/
def rowLdrswUimm : Row :=
  ⟨0xFFC00000#32, 0xB9800000#32, fun w => .ldrswUimm (fieldRd w) (fieldRn w) (fieldImm12 w)⟩

/-- Row 6. -/
def rowStrUimmW : Row :=
  ⟨0xFFC00000#32, 0xB9000000#32, fun w => .strUimmW (fieldRd w) (fieldRn w) (fieldImm12 w)⟩

/-- Row 7. -/
def rowStrUimmX : Row :=
  ⟨0xFFC00000#32, 0xF9000000#32, fun w => .strUimmX (fieldRd w) (fieldRn w) (fieldImm12 w)⟩

/-- Row 8. -/
def rowLdrRegW : Row :=
  ⟨0xFFE00C00#32, 0xB8600800#32,
    fun w => .ldrRegW (fieldRd w) (fieldRn w) (fieldRm w) (fieldOption w) (fieldS w)⟩

/-- Row 9. -/
def rowLdrRegX : Row :=
  ⟨0xFFE00C00#32, 0xF8600800#32,
    fun w => .ldrRegX (fieldRd w) (fieldRn w) (fieldRm w) (fieldOption w) (fieldS w)⟩

/-- The DPI sub-decoder's rows (30_encoding.md R92). -/
def dpImmRows : List Row := [rowSubImmX]

/-- The DPR sub-decoder's rows (30_encoding.md R92). -/
def dpRegRows : List Row := [rowAddSregW]

/-- The LS sub-decoder's rows (30_encoding.md R92). -/
def loadStoreRows : List Row :=
  [rowLdrUimmW, rowLdrUimmX, rowLdrswUimm, rowStrUimmW, rowStrUimmX, rowLdrRegW, rowLdrRegX]

/-- Why a word does not decode (60_exceptions.md R201 (a), (b), (c)); each of the first three is a DecodeFailure
of the block. -/
inductive DecodeReject where
  /-- R201 (a): the group is unsupported (30_encoding.md R82). -/
  | unsupportedGroup (g : Group)
  /-- R201 (b): no row of the group's sub-decoder matches (30_encoding.md R93). -/
  | noMatchingRow (g : Group)
  /-- R201 (c): the matching row's constraint is false (30_encoding.md R93). -/
  | reservedField (i : Instr)
  /-- Fewer than four bytes were given: no instruction word. Not reached by the machine, whose fetch reads four. -/
  | truncated
deriving DecidableEq, Repr

/-- A sub-decoder: the first row that matches, then its constraint (30_encoding.md R92, R93). -/
def subDecode (g : Group) (w : Word32) : List Row → Except DecodeReject Instr
  | [] => .error (.noMatchingRow g)
  | r :: rest =>
    if r.hits w then
      if (r.build w).wf then .ok (r.build w) else .error (.reservedField (r.build w))
    else subDecode g w rest

/-- The decoder's one entry point on an instruction word (30_encoding.md R81, R82, R92, R95). -/
def decodeWord (w : Word32) : Except DecodeReject Instr :=
  match groupOf (op0Of w) with
  | .dpImm => subDecode .dpImm w dpImmRows
  | .dpReg => subDecode .dpReg w dpRegRows
  | .loadStore => subDecode .loadStore w loadStoreRows
  | .branchSystem => .error (.unsupportedGroup .branchSystem)
  | .fpSimd => .error (.unsupportedGroup .fpSimd)
  | .reserved => .error (.unsupportedGroup .reserved)

/-! ### Bytes of a word -/

/-- The four bytes of a word in memory order: bits `[7:0]` first (20_memory.md R52). -/
def bytesOfWord (w : Word32) : List Byte :=
  [w.extractLsb' 0 8, w.extractLsb' 8 8, w.extractLsb' 16 8, w.extractLsb' 24 8]

/-- Reads the next instruction of a byte stream, in memory order, and gives the bytes that follow it. -/
def decodeBytes : List Byte → Except DecodeReject (Instr × List Byte)
  | b0 :: b1 :: b2 :: b3 :: rest =>
    match decodeWord (b3 ++ b2 ++ b1 ++ b0 : BitVec (8 + 8 + 8 + 8)) with
    | .ok i => .ok (i, rest)
    | .error e => .error e
  | _ => .error .truncated

/-! ### Encoder -/

/-- The word of an instruction, field by field from the formats of 30_encoding.md R83 to R86, bit 31 first. -/
def encode : Instr → Word32
  | .subImmX rd rn imm12 =>
    (0b1101000100#10 ++ imm12 ++ regField rn ++ regField rd : BitVec (10 + 12 + 5 + 5))
  | .addSregW rd rn rm shift imm6 =>
    (0b00001011#8 ++ shift ++ 0b0#1 ++ regField rm ++ imm6 ++ regField rn ++ regField rd :
      BitVec (8 + 2 + 1 + 5 + 6 + 5 + 5))
  | .ldrUimmW rt rn imm12 =>
    (0b1011100101#10 ++ imm12 ++ regField rn ++ regField rt : BitVec (10 + 12 + 5 + 5))
  | .ldrUimmX rt rn imm12 =>
    (0b1111100101#10 ++ imm12 ++ regField rn ++ regField rt : BitVec (10 + 12 + 5 + 5))
  | .ldrswUimm rt rn imm12 =>
    (0b1011100110#10 ++ imm12 ++ regField rn ++ regField rt : BitVec (10 + 12 + 5 + 5))
  | .strUimmW rt rn imm12 =>
    (0b1011100100#10 ++ imm12 ++ regField rn ++ regField rt : BitVec (10 + 12 + 5 + 5))
  | .strUimmX rt rn imm12 =>
    (0b1111100100#10 ++ imm12 ++ regField rn ++ regField rt : BitVec (10 + 12 + 5 + 5))
  | .ldrRegW rt rn rm option s =>
    (0b10111000011#11 ++ regField rm ++ option ++ BitVec.ofBool s ++ 0b10#2 ++ regField rn ++ regField rt :
      BitVec (11 + 5 + 3 + 1 + 2 + 5 + 5))
  | .ldrRegX rt rn rm option s =>
    (0b11111000011#11 ++ regField rm ++ option ++ BitVec.ofBool s ++ 0b10#2 ++ regField rn ++ regField rt :
      BitVec (11 + 5 + 3 + 1 + 2 + 5 + 5))

/-! ### The table's words -/

/-- The word of a table row given as `nbits` bits `w`, bits from `nbits` on being 0. -/
def tableWord (nbits w : Nat) : Word32 := BitVec.ofNat 32 (w % 2 ^ nbits)

/-- The instruction the decoder reads from a table row's word, laid out as memory holds it. -/
def decodeTableWord (nbits w : Nat) : Option Instr :=
  match decodeBytes (bytesOfWord (tableWord nbits w)) with
  | .ok (i, _) => some i
  | .error _ => none

end Sys2Proof
end

