-- ==== Sys2Proof/Config.lean ====
section
/-! DEFINITION. What the spec leaves to the host or leaves open (00_scope.md R5): the limits of MEM_SIZE,
the host's inputs to the start of a run, the values `State.reset` takes for them, and the model's one free value. -/

namespace Sys2Proof.Config

/-- 00_scope.md R5: `1 <= MEM_SIZE`. -/
def minMemSize : Nat := 1

/-- 00_scope.md R5: `MEM_SIZE <= 2^63`. -/
def maxMemSize : Nat := 2 ^ 63

/-- What the host supplies for a run (00_scope.md R5; 70_reset_and_hazards.md R230, R234). A register the host
does not supply is unspecified: it is an entry of `regInit` (or `spInit`) about which a statement assumes
nothing (93_implementation_defined.md U10). `irBefore` and `faultAddrBefore` are what those two registers
happen to hold when the run starts, which the spec leaves unspecified (10_state.md R43, U21). -/
structure HostInputs where
  /-- `MEM_SIZE`, in bytes. -/
  memSize : Nat
  /-- `IMAGE`, the bytes loaded from address 0. -/
  image : List Byte
  /-- `REG_INIT` of `x[0..30]`. -/
  regInit : Vector Word64 31
  /-- `REG_INIT` of `SP`. -/
  spInit : Word64
  /-- `START_PC`. -/
  startPc : Word64
  /-- `STOP_PC`, optional. -/
  stopPc : Option Word64
  /-- The level of the input `finished` when the run starts. -/
  finished : Bool
  irBefore : Word32
  faultAddrBefore : Word64
deriving DecidableEq, Repr

/-- The parameter ranges of 00_scope.md R5 that a run presupposes; `IMAGE`'s length is checked by the load
itself (70_reset_and_hazards.md R231). -/
def HostInputs.legal (h : HostInputs) : Bool :=
  decide (minMemSize ≤ h.memSize) && decide (h.memSize ≤ maxMemSize)

/-- `MEM_SIZE` of `State.reset`. DESIGN CHOICE (log 1): the spec leaves it OPEN; the vectors of
95_test_vectors.md use 4096. -/
def resetMemSize : Nat := 4096

/-- The value of MDR in a cycle that has not loaded it. No decode of the nine instructions asks for it
(10_state.md R41), and the spec gives it no value (R43), so it is a free value: nothing can be proved of it.
DESIGN CHOICE (log 12), safe. -/
opaque unwrittenMdr : Word64

end Sys2Proof.Config
end

