-- ==== Sys2Proof/Machine/State.lean ====
section
/-! DEFINITION. The state of TDA CORE as plain data (10_state.md): the register file, IR, status, fault_addr, the
transient datapath state of the cycle, the memory, and the host's parameters and inputs; the failures; and the
machine right after reset. -/

namespace Sys2Proof.Machine

/-! ### Control signals (10_state.md R34) -/

/-- `ALUOp`. -/
inductive ALUOp where
  | none
  | add
  | sub
deriving DecidableEq, Repr

/-- `MemOp`. -/
inductive MemOp where
  | none
  | read32
  | read64
  | write32
  | write64
deriving DecidableEq, Repr

/-- `WriteBackOp`. -/
inductive WriteBackOp where
  | none
  | registerWrite
deriving DecidableEq, Repr

/-- The control-signal bundle (10_state.md R34). The enumerations are closed types: their binary codes are not
observable (93_implementation_defined.md U23). -/
structure Bundle where
  aluOp : ALUOp
  memOp : MemOp
  writeBackOp : WriteBackOp
  memToRegister : Bool
  floatingPointOperation : Bool
deriving DecidableEq, Repr

/-- The bundle's undefined state (10_state.md R35). -/
def Bundle.undef : Bundle := ⟨.none, .none, .none, false, false⟩

/-! ### References, driver, status, failures -/

/-- The view a register is read or written through (10_state.md R28). -/
inductive Width where
  | w32
  | w64
deriving DecidableEq, Repr

/-- A register reference: target and width (10_state.md R28). -/
structure RegRef where
  target : Reg
  width : Width
deriving DecidableEq, Repr

/-- The cycle driver's states (40_cycle_and_datapath.md R110). -/
inductive DriverState where
  | fetch
  | decode
  | execute
  | memoryAccess
  | writeBack
deriving DecidableEq, Repr

/-- The status register (10_state.md R30). -/
inductive Status where
  /-- A run is in progress. -/
  | running
  /-- The host's `finished` ended the run. -/
  | finished
  /-- A DecodeFailure ended the run. -/
  | failDecode
  /-- An ExecControlFailure ended the run. -/
  | failExecControl
  /-- An AddressingFailure ended the run. -/
  | failAddress
deriving DecidableEq, Repr

/-- The control signals an ExecControlFailure can name (60_exceptions.md R202). `MemOp` and `WriteBackOp` are closed
types here, so that they hold no code without a handler (40_cycle_and_datapath.md R118, R121). -/
inductive ControlSignal where
  /-- `FloatingPointOperation = true` at Execute. -/
  | floatingPoint
  /-- `ALUOp = None` at the ALU. -/
  | aluOp
deriving DecidableEq, Repr

/-- The three failures and what each carries (60_exceptions.md R200 to R203). -/
inductive Failure where
  /-- `DecodeFailure(IR)`. -/
  | decode (ir : Word32)
  /-- `ExecControlFailure(signal)`. -/
  | execControl (signal : ControlSignal)
  /-- `AddressingFailure(addr)`. -/
  | addressing (addr : Word64)
deriving DecidableEq, Repr

/-- What one successful decode produces, handed on to the stages after it (30_encoding.md R95; 10_state.md R34, R36,
R40). -/
structure DecoderOutput where
  bundle : Bundle
  a : Word64
  b : Word64
  dest : RegRef
deriving DecidableEq, Repr

/-! ### State -/

/-- The transient state of one cycle (10_state.md §3) and the driver's state. `none` means that the current cycle
has not produced the value: transients are recreated every cycle and carry nothing over (R41; log 7). -/
structure Transients where
  /-- The cycle driver's state (40_cycle_and_datapath.md R110): Fetch between cycles; after a failure, the stage
  that failed (log 9). -/
  driver : DriverState
  /-- The control-signal bundle (R34). -/
  bundle : Bundle
  /-- Operand `A` (R36). -/
  opA : Option Word64
  /-- Operand `B` (R36). -/
  opB : Option Word64
  /-- `Dest` (R40). -/
  dest : Option RegRef
  /-- `ALUResult` (R38). -/
  aluResult : Option Word64
  /-- `MDR` (R37). -/
  mdr : Option Word64
deriving DecidableEq, Repr

/-- The transients before a cycle's decode: driver in Fetch, bundle undefined, nothing produced (10_state.md R35, R43). -/
def Transients.fresh : Transients := ⟨.fetch, .undef, none, none, none, none, none⟩

/-- The memory's contents: (address, byte) pairs. An address that is not listed reads as 0, the value every byte
outside IMAGE has at the start of a run (70_reset_and_hazards.md R230 step 2). -/
abbrev Memory := List Host.Cell

/-- Addresses rise strictly from `lo` on, and no entry is 0. -/
def Memory.risesFrom (lo : Nat) : Memory → Bool
  | [] => true
  | (a, b) :: m => decide (lo ≤ a) && b != 0#8 && Memory.risesFrom (a + 1) m

/-- The one canonical form: addresses strictly rising, no entry equal to what an unlisted address reads as. -/
def Memory.wf (m : Memory) : Bool := Memory.risesFrom 0 m

/-- Every listed address is below `n`. -/
def Memory.below (n : Nat) (m : Memory) : Bool := m.all fun c => decide (c.1 < n)

/-- The machine's state. -/
structure State where
  /-- `x[0..30]` (10_state.md R20). -/
  x : Vector Word64 31
  /-- `SP` (R21). -/
  sp : Word64
  /-- `PC` (R22). -/
  pc : Word64
  /-- `IR` (R39). -/
  ir : Word32
  /-- `status` (R30). -/
  status : Status
  /-- `fault_addr` (R31). -/
  faultAddr : Word64
  /-- Which signal the last ExecControlFailure named: the model's own record (60_exceptions.md R202; log 10). -/
  failedSignal : Option ControlSignal
  /-- The transient datapath state (10_state.md §3). -/
  cyc : Transients
  /-- The memory's bytes (20_memory.md R50). -/
  mem : Memory
  /-- `MEM_SIZE` (00_scope.md R5); no step writes it (log 5). -/
  memSize : Nat
  /-- The level of the host's input `finished` (10_state.md R32); no step writes it (log 6). -/
  finishedIn : Bool
  /-- `STOP_PC`: the host also asserts `finished` while PC is this address (92_eei_decisions.md D13; log 6). -/
  stopPc : Option Word64
deriving DecidableEq, Repr

/-- A step never faults in the Host's sense: each failure of the block is a NEXT state in which `status` records it
(60_exceptions.md R200, R204; log 11). So there is no constructor. Safe: no behaviour is cut off. -/
inductive Fault : Type
deriving DecidableEq, Repr

/-- Why the model gives no next state. -/
inductive Refusal where
  /-- Raised by `exec`'s arm of an instruction without a meaning; no arm is left that does. Safe. -/
  | notModelled (mnemonic : String)
  /-- Raised by `State.start`: IMAGE is longer than MEM_SIZE, so no run starts (70_reset_and_hazards.md R231). No step
  raises it. Safe: the spec says that no cycle executes. -/
  | imageTooLarge
deriving DecidableEq, Repr

/-- The machine right after reset: 10_state.md R43 for a host that supplies an empty IMAGE. DESIGN CHOICE: MEM_SIZE
4096, START_PC 0, no STOP_PC, `finished` deasserted (log 1); `x[0..30]` and SP 0 (log 2); IR and fault_addr 0
(log 3). -/
def State.reset : State where
  x := Vector.replicate 31 0#64
  sp := 0#64
  pc := 0#64
  ir := 0#32
  status := .running
  faultAddr := 0#64
  failedSignal := none
  cyc := .fresh
  mem := []
  memSize := Config.resetMemSize
  finishedIn := false
  stopPc := none

end Sys2Proof.Machine
end

