-- ==== Sys2Proof/Machine/Ops.lean ====
section
/-! DEFINITION. The named operations over registers and memory, raising a failure, the marks the cycle's stages leave
in the transient state, and the start of a run. -/

namespace Sys2Proof.Machine

/-! ### Register file (10_state.md R23 to R28) -/

/-- `readDoubleWord(n)`, `n` in 0..30 (10_state.md R23). -/
def State.readDoubleWord (s : State) (n : Fin 31) : Word64 := s.x[n.val]

/-- `writeDoubleWord(n, v)` (10_state.md R23). -/
def State.writeDoubleWord (s : State) (n : Fin 31) (v : Word64) : State :=
  { s with x := s.x.set n.val v n.isLt }

/-- The 64-bit view read `R64` (10_state.md R25). -/
def State.read64 (s : State) : Reg → Word64
  | .x n => s.readDoubleWord n
  | .sp => s.sp

/-- The 64-bit view write (10_state.md R25). -/
def State.write64 (s : State) (r : Reg) (v : Word64) : State :=
  match r with
  | .x n => s.writeDoubleWord n v
  | .sp => { s with sp := v }

/-- The 32-bit view read `R32`: the low 32 bits (10_state.md R26). -/
def State.read32 (s : State) (r : Reg) : Word32 := (s.read64 r).setWidth 32

/-- The 32-bit view write: bits `[63:32]` become 0, for SP alike (10_state.md R27). -/
def State.write32 (s : State) (r : Reg) (v : Word32) : State := s.write64 r (v.setWidth 64)

/-- `readWord(n)` (10_state.md R23). -/
def State.readWord (s : State) (n : Fin 31) : Word32 := s.read32 (.x n)

/-- `writeWord(n, v)` (10_state.md R23). -/
def State.writeWord (s : State) (n : Fin 31) (v : Word32) : State := s.write32 (.x n) v

/-- `reg(ref)` (10_state.md R28). -/
def State.readRef (s : State) (ref : RegRef) : Word64 :=
  match ref.width with
  | .w32 => (s.read32 ref.target).setWidth 64
  | .w64 => s.read64 ref.target

/-- `reg(ref) <- v` (10_state.md R28; 40_cycle_and_datapath.md R122). -/
def State.writeRef (s : State) (ref : RegRef) (v : Word64) : State :=
  match ref.width with
  | .w32 => s.write32 ref.target (v.setWidth 32)
  | .w64 => s.write64 ref.target v

/-! ### Bytes of memory (20_memory.md R50, R52, R56, R57) -/

/-- The byte at an address; one that is not listed is 0. -/
def Memory.byte : Memory → Nat → Byte
  | [], _ => 0#8
  | (c, d) :: m, a => if a = c then d else Memory.byte m a

/-- Every entry of the address removed. -/
def Memory.without (m : Memory) (a : Nat) : Memory := m.filter fun c => c.1 != a

/-- A nonzero byte entered where addresses keep rising. -/
def Memory.enter (a : Nat) (b : Byte) : Memory → Memory
  | [] => [(a, b)]
  | (c, d) :: m => if a < c then (a, b) :: (c, d) :: m else (c, d) :: Memory.enter a b m

/-- One byte written; writing 0 leaves the address unlisted. -/
def Memory.setByte (m : Memory) (a : Nat) (b : Byte) : Memory :=
  if b = 0#8 then m.without a else (m.without a).enter a b

/-- The `n` bytes from `a` as a little-endian value (20_memory.md R52, R56). -/
def Memory.load (m : Memory) (a : Nat) : (n : Nat) → BitVec (8 * n)
  | 0 => 0#0
  | n + 1 => (Memory.load m (a + 1) n ++ m.byte a : BitVec (8 * n + 8))

/-- The `n` bytes of `v` written from `a` on, bits `[7:0]` first (20_memory.md R52, R57). -/
def Memory.store (m : Memory) (a : Nat) : (n : Nat) → BitVec (8 * n) → Memory
  | 0, _ => m
  | n + 1, v => Memory.store (m.setByte a (v.extractLsb' 0 8)) (a + 1) n (v.extractLsb' 8 (8 * n))

/-- The byte of the state's memory at an address. -/
def State.byteAt (s : State) (a : Nat) : Byte := s.mem.byte a

/-! ### Checked accesses (20_memory.md R55 to R57) -/

/-- `check(addr, n)`: aligned to `n`, and within MEM_SIZE on unbounded integers (20_memory.md R55). -/
def State.accessOk (s : State) (addr : Word64) (n : Nat) : Bool :=
  decide (addr.toNat % n = 0) && decide (addr.toNat + n ≤ s.memSize)

/-- `MemRead(addr, n)` (20_memory.md R56). -/
def State.memRead (s : State) (addr : Word64) (n : Nat) : Except Failure (BitVec (8 * n)) :=
  if s.accessOk addr n then .ok (s.mem.load addr.toNat n) else .error (.addressing addr)

/-- `MemWrite(addr, n, v)` (20_memory.md R57). -/
def State.memWrite (s : State) (addr : Word64) (n : Nat) (v : BitVec (8 * n)) : Except Failure State :=
  if s.accessOk addr n then .ok { s with mem := s.mem.store addr.toNat n v } else .error (.addressing addr)

/-! ### Failures (60_exceptions.md) -/

/-- Raising a failure: `status` takes its kind, `fault_addr` the address of an AddressingFailure, and the model keeps
the signal of an ExecControlFailure; nothing else is recorded and nothing is saved or redirected
(60_exceptions.md R200, R202, R203, R204, R207). There is no return from one (R208): the block halts. -/
def State.raise (s : State) : Failure → State
  | .decode _ => { s with status := .failDecode }
  | .execControl signal => { s with status := .failExecControl, failedSignal := some signal }
  | .addressing addr => { s with status := .failAddress, faultAddr := addr }

/-- The run-result code the host gets at the end of a run (60_exceptions.md R200, R216); a run still going has none. -/
def Status.resultCode : Status → Option Nat
  | .running => none
  | .finished => some 0
  | .failDecode => some 1
  | .failExecControl => some 2
  | .failAddress => some 3

/-! ### The input `finished` -/

/-- `finished` as sampled at the start of a cycle: the host's level, or PC at STOP_PC (10_state.md R32;
92_eei_decisions.md D13). -/
def State.finishedSampled (s : State) : Bool := s.finishedIn || s.stopPc == some s.pc

/-- The host drives the input `finished` between two steps (10_state.md R32). -/
def State.driveFinished (s : State) (level : Bool) : State := { s with finishedIn := level }

/-! ### What the stages leave in the state -/

/-- The cycle begins: driver in Fetch, bundle undefined, no transient value produced yet
(40_cycle_and_datapath.md R126 "bundle <- UNDEF"; 10_state.md R35, R41; log 8). -/
def State.beginCycle (s : State) : State := { s with cyc := .fresh }

/-- The driver passes to a stage (40_cycle_and_datapath.md R110). -/
def State.enterStage (s : State) (d : DriverState) : State := { s with cyc := { s.cyc with driver := d } }

/-- `IR` is loaded (40_cycle_and_datapath.md R114, R115). -/
def State.loadIR (s : State) (w : Word32) : State := { s with ir := w }

/-- A successful decode writes the bundle, `A`, `B` and `Dest`, all of them and afresh, and the driver passes to
Execute (30_encoding.md R95; 10_state.md R41). -/
def State.latchDecode (s : State) (d : DecoderOutput) : State :=
  { s with cyc := ⟨.execute, d.bundle, some d.a, some d.b, some d.dest, none, none⟩ }

/-- `ALUResult` is produced, and the driver passes to Memory-Access (10_state.md R38). -/
def State.latchALU (s : State) (r : Word64) : State :=
  { s with cyc := { s.cyc with aluResult := some r, driver := .memoryAccess } }

/-- `MDR` is loaded (10_state.md R37). -/
def State.latchMDR (s : State) (v : Word64) : State := { s with cyc := { s.cyc with mdr := some v } }

/-- MDR as write-back reads it; in a cycle that has not loaded it, which no decode produces, the free value
(10_state.md R41; log 12). -/
def State.mdrValue (s : State) : Word64 := s.cyc.mdr.getD Config.unwrittenMdr

/-- The end of a cycle whose stages all succeeded: `PC <- PC + 4`, the driver loops to Fetch
(40_cycle_and_datapath.md R110, R124). -/
def State.completeCycle (s : State) : State :=
  { s with pc := s.pc + 4#64, cyc := { s.cyc with driver := .fetch } }

/-! ### Start of a run (70_reset_and_hazards.md R230, R231) -/

/-- Bytes written one after another from an address on. -/
def Memory.fill (m : Memory) (a : Nat) : List Byte → Memory
  | [] => m
  | b :: bs => Memory.fill (m.setByte a b) (a + 1) bs

/-- The start sequence of 70_reset_and_hazards.md R230: memory of zero bytes, IMAGE from address 0, REG_INIT,
`PC <- START_PC`, `status <- RUNNING`, undefined bundle, driver in Fetch. An IMAGE longer than MEM_SIZE starts no
run (R231). -/
def State.start (h : Config.HostInputs) : Except Refusal State :=
  if h.image.length ≤ h.memSize then
    .ok {
      x := h.regInit
      sp := h.spInit
      pc := h.startPc
      ir := h.irBefore
      status := .running
      faultAddr := h.faultAddrBefore
      failedSignal := none
      cyc := .fresh
      mem := Memory.fill [] 0 h.image
      memSize := h.memSize
      finishedIn := h.finished
      stopPc := h.stopPc }
  else .error .imageTooLarge

end Sys2Proof.Machine
end

