-- ==== Sys2Proof/Machine/Cycle.lean ====
section
/-! DEFINITION. The cycle driver (40_cycle_and_datapath.md R110 to R116, R126, R128): the tests before a cycle, Fetch,
the dispatch of the decoder, and the storing of a word where the next fetch reads it. -/

namespace Sys2Proof.Machine

/-- Fetch: the little-endian word at PC, checked for alignment and bounds (40_cycle_and_datapath.md R114;
20_memory.md R53, R55). -/
def fetchWord (s : State) : Except Failure Word32 := s.memRead s.pc 4

/-- One cycle up to the decoded instruction, whose meaning is `run` (40_cycle_and_datapath.md R126): nothing happens
when halted (R128); `finished` stops the run before the fetch (R112); a failing fetch leaves IR (R114); a failing
decode leaves the word in IR and the bundle undefined (R116; 30_encoding.md R95). -/
def driveCycle (run : Instr → State → Host.Outcome State Fault Refusal) (s : State) :
    Host.Outcome State Fault Refusal :=
  if s.status ≠ .running then .next s
  else if s.finishedSampled then .next { s with status := .finished }
  else
    match fetchWord s with
    | .error f => .next (s.beginCycle.raise f)
    | .ok w =>
      match decodeWord w with
      | .error _ => .next (((s.beginCycle.loadIR w).enterStage .decode).raise (.decode w))
      | .ok i => run i ((s.beginCycle.loadIR w).enterStage .decode)

/-- A word stored in the four bytes at PC, in the byte order fetch reads (20_memory.md R53). -/
def State.placeWord (s : State) (w : Word32) : State := { s with mem := s.mem.store s.pc.toNat 4 w }

end Sys2Proof.Machine
end

