-- ==== Sys2Proof/Machine/Datapath.lean ====
section
/-! DEFINITION. The stages after decode, which every instruction passes through (40_cycle_and_datapath.md R117 to
R126): Execute (the ALU), Memory-Access, Write-back, and the PC advance. -/

namespace Sys2Proof.Machine

/-- The ALU: 64-bit add or subtract, modulo 2^64, no flags (40_cycle_and_datapath.md R117). -/
def alu (op : ALUOp) (a b : Word64) : Except Failure Word64 :=
  match op with
  | .add => .ok (a + b)
  | .sub => .ok (a - b)
  | .none => .error (.execControl .aluOp)

/-- Execute: the floating arm fails, whatever `ALUOp` is; else the ALU (40_cycle_and_datapath.md R117;
60_exceptions.md R205). -/
def executeStage (bd : Bundle) (a b : Word64) : Except Failure Word64 :=
  if bd.floatingPointOperation then .error (.execControl .floatingPoint) else alu bd.aluOp a b

/-- Memory-Access: at most one transaction, the store's data read through `Dest` (40_cycle_and_datapath.md R118,
R119, R120). -/
def memoryStage (op : MemOp) (addr : Word64) (dest : RegRef) (s : State) : Except Failure State :=
  match op with
  | .none => .ok s
  | .read32 =>
    match s.memRead addr 4 with
    | .ok v => .ok (s.latchMDR (v.signExtend 64))
    | .error f => .error f
  | .read64 =>
    match s.memRead addr 8 with
    | .ok v => .ok (s.latchMDR v)
    | .error f => .error f
  | .write32 => s.memWrite addr 4 ((s.readRef dest).setWidth 32)
  | .write64 => s.memWrite addr 8 (s.readRef dest)

/-- Write-back: nothing, or MDR or the ALU result into `Dest` (40_cycle_and_datapath.md R121, R122). -/
def writeBackStage (bd : Bundle) (aluResult : Word64) (dest : RegRef) (s : State) : State :=
  match bd.writeBackOp with
  | .none => s
  | .registerWrite => s.writeRef dest (if bd.memToRegister then s.mdrValue else aluResult)

/-- The rest of a cycle once decode has produced its outputs (40_cycle_and_datapath.md R126). A failing stage ends the
cycle: the later stages do not run and PC stays (R125). -/
def runStages (d : DecoderOutput) (s : State) : Host.Outcome State Fault Refusal :=
  match executeStage d.bundle d.a d.b with
  | .error f => .next ((s.latchDecode d).raise f)
  | .ok r =>
    match memoryStage d.bundle.memOp r d.dest ((s.latchDecode d).latchALU r) with
    | .error f => .next (((s.latchDecode d).latchALU r).raise f)
    | .ok s' => .next (writeBackStage d.bundle r d.dest (s'.enterStage .writeBack)).completeCycle

end Sys2Proof.Machine
end

