-- ==== Sys2Proof/Machine/Operands.lean ====
section
/-! DEFINITION. The operand forms: the scaled immediate offset (30_encoding.md R87), the shifted register (R88), the
extended and scaled register (R89). The ALU adds the load's or store's offset to its base (42_load_store.md R170). -/

namespace Sys2Proof.Machine

/-- `zext_64(imm12) << scale` (30_encoding.md R87): the immediate itself for scale 0, the offset of a 4-byte access
for scale 2, of an 8-byte access for scale 3. -/
def immOperand (scale : Nat) (imm12 : BitVec 12) : Word64 := imm12.setWidth 64 <<< scale

/-- The kinds of shift (30_encoding.md R88). -/
inductive ShiftKind where
  | lsl
  | lsr
  | asr
deriving DecidableEq, Repr

/-- The kind a `shift` field selects; `11` is reserved (30_encoding.md R88). -/
def shiftKind (shift : BitVec 2) : Option ShiftKind :=
  if shift = 0b00#2 then some .lsl
  else if shift = 0b01#2 then some .lsr
  else if shift = 0b10#2 then some .asr
  else none

/-- `lsl_32`, `lsr_32`, `asr_32` (00_scope.md R7): exactly one kind is applied (30_encoding.md R88). -/
def applyShift (k : ShiftKind) (v : Word32) (amount : Nat) : Word32 :=
  match k with
  | .lsl => v <<< amount
  | .lsr => v >>> amount
  | .asr => v.sshiftRight amount

/-- The shifted `Rm` value of ADD_sreg_W; none where the `shift` or the `imm6` field is reserved
(41_data_processing.md R151). -/
def shiftedOperand (shift : BitVec 2) (imm6 : BitVec 6) (v : Word32) : Option Word32 :=
  match shiftKind shift with
  | none => none
  | some k => if imm6.getLsbD 5 then none else some (applyShift k v imm6.toNat)

/-- The kinds of extension (30_encoding.md R89). -/
inductive ExtendKind where
  | uxtw
  | lsl
  | sxtw
  | sxtx
deriving DecidableEq, Repr

/-- The kind an `option` field selects; those with `option[1] = 0` are reserved (30_encoding.md R89). -/
def extendKind (option : BitVec 3) : Option ExtendKind :=
  if option = 0b010#3 then some .uxtw
  else if option = 0b011#3 then some .lsl
  else if option = 0b110#3 then some .sxtw
  else if option = 0b111#3 then some .sxtx
  else none

/-- The offset before scaling (30_encoding.md R89). -/
def applyExtend (k : ExtendKind) (m : Word64) : Word64 :=
  match k with
  | .uxtw => (m.setWidth 32).setWidth 64
  | .lsl => m
  | .sxtw => (m.setWidth 32).signExtend 64
  | .sxtx => m

/-- The scaled offset of a register-offset load whose access is `2^size` bytes wide; none where `option` is reserved
(30_encoding.md R89). -/
def extendedOffset (size : Nat) (option : BitVec 3) (scaled : Bool) (m : Word64) : Option Word64 :=
  match extendKind option with
  | none => none
  | some k => some (applyExtend k m <<< (if scaled then size else 0))

end Sys2Proof.Machine
end

