-- ==== Sys2Proof/Machine/DataProcessing.lean ====
section
/-! DEFINITION. The data-processing instructions (41_data_processing.md): what decode produces for each, handed to the
shared stages. -/

namespace Sys2Proof.Machine

/-- SUB_imm_X (41_data_processing.md R150). -/
def execSubImmX (rd rn : Reg) (imm12 : BitVec 12) (s : State) : Host.Outcome State Fault Refusal :=
  runStages {
    bundle := ⟨.sub, .none, .registerWrite, false, false⟩
    a := s.read64 rn
    b := immOperand 0 imm12
    dest := ⟨rd, .w64⟩ } s

/-- ADD_sreg_W (41_data_processing.md R151). A reserved `shift` or `imm6` is a DecodeFailure, as the rule's own
pseudocode has it; the decoder refuses such a word before it gets here (log 13). -/
def execAddSregW (rd rn rm : Reg) (shift : BitVec 2) (imm6 : BitVec 6) (s : State) :
    Host.Outcome State Fault Refusal :=
  match shiftedOperand shift imm6 (s.read32 rm) with
  | none => .next (s.raise (.decode s.ir))
  | some v =>
    runStages {
      bundle := ⟨.add, .none, .registerWrite, false, false⟩
      a := (s.read32 rn).setWidth 64
      b := v.setWidth 64
      dest := ⟨rd, .w32⟩ } s

end Sys2Proof.Machine
end

