-- ==== Sys2Proof/Machine/LoadStore.lean ====
section
/-! DEFINITION. The load and store instructions (42_load_store.md): what decode produces for each, handed to the
shared stages. The effective address is the ALU's sum of base and offset (R170). -/

namespace Sys2Proof.Machine

/-- LDR_uimm_W (42_load_store.md R171). -/
def execLdrUimmW (rt rn : Reg) (imm12 : BitVec 12) (s : State) : Host.Outcome State Fault Refusal :=
  runStages {
    bundle := ⟨.add, .read32, .registerWrite, true, false⟩
    a := s.read64 rn
    b := immOperand 2 imm12
    dest := ⟨rt, .w32⟩ } s

/-- LDR_uimm_X (42_load_store.md R172). -/
def execLdrUimmX (rt rn : Reg) (imm12 : BitVec 12) (s : State) : Host.Outcome State Fault Refusal :=
  runStages {
    bundle := ⟨.add, .read64, .registerWrite, true, false⟩
    a := s.read64 rn
    b := immOperand 3 imm12
    dest := ⟨rt, .w64⟩ } s

/-- LDRSW_uimm (42_load_store.md R173): `Dest` is 64 bits wide, so MDR's sign extension is kept. -/
def execLdrswUimm (rt rn : Reg) (imm12 : BitVec 12) (s : State) : Host.Outcome State Fault Refusal :=
  runStages {
    bundle := ⟨.add, .read32, .registerWrite, true, false⟩
    a := s.read64 rn
    b := immOperand 2 imm12
    dest := ⟨rt, .w64⟩ } s

/-- STR_uimm_W (42_load_store.md R174): `Dest` is the data source, and no register is written. -/
def execStrUimmW (rt rn : Reg) (imm12 : BitVec 12) (s : State) : Host.Outcome State Fault Refusal :=
  runStages {
    bundle := ⟨.add, .write32, .none, false, false⟩
    a := s.read64 rn
    b := immOperand 2 imm12
    dest := ⟨rt, .w32⟩ } s

/-- STR_uimm_X (42_load_store.md R175): `Dest` is the data source, and no register is written. -/
def execStrUimmX (rt rn : Reg) (imm12 : BitVec 12) (s : State) : Host.Outcome State Fault Refusal :=
  runStages {
    bundle := ⟨.add, .write64, .none, false, false⟩
    a := s.read64 rn
    b := immOperand 3 imm12
    dest := ⟨rt, .w64⟩ } s

/-- LDR_reg_W (42_load_store.md R176). A reserved `option` is a DecodeFailure, as the rule's own pseudocode has it; the
decoder refuses such a word before it gets here (log 13). -/
def execLdrRegW (rt rn rm : Reg) (option : BitVec 3) (scaled : Bool) (s : State) :
    Host.Outcome State Fault Refusal :=
  match extendedOffset 2 option scaled (s.read64 rm) with
  | none => .next (s.raise (.decode s.ir))
  | some off =>
    runStages {
      bundle := ⟨.add, .read32, .registerWrite, true, false⟩
      a := s.read64 rn
      b := off
      dest := ⟨rt, .w32⟩ } s

/-- LDR_reg_X (42_load_store.md R177); a reserved `option` as in LDR_reg_W. -/
def execLdrRegX (rt rn rm : Reg) (option : BitVec 3) (scaled : Bool) (s : State) :
    Host.Outcome State Fault Refusal :=
  match extendedOffset 3 option scaled (s.read64 rm) with
  | none => .next (s.raise (.decode s.ir))
  | some off =>
    runStages {
      bundle := ⟨.add, .read64, .registerWrite, true, false⟩
      a := s.read64 rn
      b := off
      dest := ⟨rt, .w64⟩ } s

end Sys2Proof.Machine
end

