-- ==== Sys2Proof/Machine/Dispatch.lean ====
section
/-! DEFINITION. The meaning of each instruction, one arm per constructor: what its cycle does from decode on
(40_cycle_and_datapath.md R126), on a state whose IR holds its word. -/

namespace Sys2Proof.Machine

def exec (i : Instr) (s : State) : Host.Outcome State Fault Refusal :=
  match i with
  | .subImmX rd rn imm12 => Sys2Proof.Machine.execSubImmX rd rn imm12 s
  | .addSregW rd rn rm shift imm6 => Sys2Proof.Machine.execAddSregW rd rn rm shift imm6 s
  | .ldrUimmW rt rn imm12 => Sys2Proof.Machine.execLdrUimmW rt rn imm12 s
  | .ldrUimmX rt rn imm12 => Sys2Proof.Machine.execLdrUimmX rt rn imm12 s
  | .ldrswUimm rt rn imm12 => Sys2Proof.Machine.execLdrswUimm rt rn imm12 s
  | .strUimmW rt rn imm12 => Sys2Proof.Machine.execStrUimmW rt rn imm12 s
  | .strUimmX rt rn imm12 => Sys2Proof.Machine.execStrUimmX rt rn imm12 s
  | .ldrRegW rt rn rm option scaled => Sys2Proof.Machine.execLdrRegW rt rn rm option scaled s
  | .ldrRegX rt rn rm option scaled => Sys2Proof.Machine.execLdrRegX rt rn rm option scaled s

end Sys2Proof.Machine
end

