-- ==== Sys2Proof/Machine/Step.lean ====
section
/-! DEFINITION. The step of the machine: one atomic cycle of the block, or nothing when it has halted
(00_scope.md R9; 40_cycle_and_datapath.md R126). -/

namespace Sys2Proof.Machine

/-- One step (40_cycle_and_datapath.md R126). -/
def step (s : State) : Host.Outcome State Fault Refusal := driveCycle exec s

/-- The table word stored at PC, where the next step fetches (log 14). Nothing else changes. -/
def State.withFetchWord (s : State) (nbits w : Nat) : State := s.placeWord (tableWord nbits w)

end Sys2Proof.Machine
end

