-- ==== Sys2Proof/Safety.lean ====
section
/-! DEFINITION. The words the statements are written in: what two states have in common, what a byte range holds, the
instruction's destination and its data access, the machine's invariant, and when a cycle starts. -/

namespace Sys2Proof.Machine

/-! ### When a cycle starts (40_cycle_and_datapath.md R112, R113, R128) -/

/-- The run goes on and `finished` is not asserted: the next step starts a cycle. -/
def State.cycleStarts (s : State) : Prop := s.status = .running ∧ s.finishedSampled = false

/-- `status` says that a stage failed. -/
def Status.failed : Status → Bool
  | .running => false
  | .finished => false
  | .failDecode => true
  | .failExecControl => true
  | .failAddress => true

/-! ### What two states have in common -/

/-- Every register of `x[0..30]` and SP reads the same. -/
def RegsSame (s t : State) : Prop := ∀ r : Reg, t.read64 r = s.read64 r

/-- Every register of `x[0..30]` and SP but `d` reads the same. -/
def RegsSameBut (d : Reg) (s t : State) : Prop := ∀ r : Reg, r ≠ d → t.read64 r = s.read64 r

/-- Every byte of memory reads the same. -/
def BytesSame (s t : State) : Prop := ∀ a : Nat, t.byteAt a = s.byteAt a

/-- Every byte of memory outside the `n` bytes from `lo` reads the same. -/
def BytesSameOutside (lo n : Nat) (s t : State) : Prop :=
  ∀ a : Nat, ¬ (lo ≤ a ∧ a < lo + n) → t.byteAt a = s.byteAt a

/-- The host's parameters and inputs are the same. -/
def HostSame (s t : State) : Prop :=
  t.memSize = s.memSize ∧ t.finishedIn = s.finishedIn ∧ t.stopPc = s.stopPc

/-- IR and what a failure would record are the same. -/
def ReportSame (s t : State) : Prop :=
  t.ir = s.ir ∧ t.status = s.status ∧ t.faultAddr = s.faultAddr ∧ t.failedSignal = s.failedSignal

/-- A precise stop (60_exceptions.md R206): no register, no byte of memory, not PC, and no host input changed. -/
def PreciseStop (s t : State) : Prop :=
  RegsSame s t ∧ t.pc = s.pc ∧ BytesSame s t ∧ HostSame s t

/-- Everything but IR, `fault_addr`, the failed signal and the transients is equal: what the spec gives a value at the
start of a run and carries from cycle to cycle. -/
def ArchSame (s t : State) : Prop :=
  t.x = s.x ∧ t.sp = s.sp ∧ t.pc = s.pc ∧ t.status = s.status ∧ t.mem = s.mem ∧ HostSame s t

/-! ### Values in memory, byte by byte (20_memory.md R52) -/

/-- The little-endian 32-bit value at an address. -/
def State.word32At (s : State) (a : Nat) : Word32 :=
  (s.byteAt (a + 3) ++ s.byteAt (a + 2) ++ s.byteAt (a + 1) ++ s.byteAt a : BitVec (8 + 8 + 8 + 8))

/-- The little-endian 64-bit value at an address. -/
def State.word64At (s : State) (a : Nat) : Word64 := (s.word32At (a + 4) ++ s.word32At a : BitVec (32 + 32))

/-! ### What an instruction names -/

/-- The register an instruction writes when its cycle completes (41_data_processing.md, 42_load_store.md). -/
def destOf : Instr → Option Reg
  | .subImmX rd _ _ => some rd
  | .addSregW rd _ _ _ _ => some rd
  | .ldrUimmW rt _ _ => some rt
  | .ldrUimmX rt _ _ => some rt
  | .ldrswUimm rt _ _ => some rt
  | .strUimmW _ _ _ => none
  | .strUimmX _ _ _ => none
  | .ldrRegW rt _ _ _ _ => some rt
  | .ldrRegX rt _ _ _ _ => some rt

/-- The register operands of an instruction, in the order of the fields `IR[4:0]`, `IR[9:5]`, `IR[20:16]`. -/
def regOperands : Instr → List Reg
  | .subImmX rd rn _ => [rd, rn]
  | .addSregW rd rn rm _ _ => [rd, rn, rm]
  | .ldrUimmW rt rn _ => [rt, rn]
  | .ldrUimmX rt rn _ => [rt, rn]
  | .ldrswUimm rt rn _ => [rt, rn]
  | .strUimmW rt rn _ => [rt, rn]
  | .strUimmX rt rn _ => [rt, rn]
  | .ldrRegW rt rn rm _ _ => [rt, rn, rm]
  | .ldrRegX rt rn rm _ _ => [rt, rn, rm]

/-- The word is one of the nine instructions: it matches a row of the opcode map and the row's constraint holds
(30_encoding.md R91, masks and constraints as its table gives them). -/
def MatchesTable (w : Word32) : Prop :=
  w &&& 0xFFC00000#32 = 0xD1000000#32 ∨
  (w &&& 0xFF200000#32 = 0x0B000000#32 ∧ w.extractLsb' 22 2 ≠ 0b11#2 ∧ (w.extractLsb' 10 6).toNat < 32) ∨
  w &&& 0xFFC00000#32 = 0xB9400000#32 ∨
  w &&& 0xFFC00000#32 = 0xF9400000#32 ∨
  w &&& 0xFFC00000#32 = 0xB9800000#32 ∨
  w &&& 0xFFC00000#32 = 0xB9000000#32 ∨
  w &&& 0xFFC00000#32 = 0xF9000000#32 ∨
  (w &&& 0xFFE00C00#32 = 0xB8600800#32 ∧ w.getLsbD 14 = true) ∨
  (w &&& 0xFFE00C00#32 = 0xF8600800#32 ∧ w.getLsbD 14 = true)

/-- The address and width of an instruction's data access (42_load_store.md R170), computed as its meaning does. -/
def dataAccess (i : Instr) (s : State) : Option (Word64 × Nat) :=
  match i with
  | .subImmX _ _ _ => none
  | .addSregW _ _ _ _ _ => none
  | .ldrUimmW _ rn imm12 => some (s.read64 rn + immOperand 2 imm12, 4)
  | .ldrUimmX _ rn imm12 => some (s.read64 rn + immOperand 3 imm12, 8)
  | .ldrswUimm _ rn imm12 => some (s.read64 rn + immOperand 2 imm12, 4)
  | .strUimmW _ rn imm12 => some (s.read64 rn + immOperand 2 imm12, 4)
  | .strUimmX _ rn imm12 => some (s.read64 rn + immOperand 3 imm12, 8)
  | .ldrRegW _ rn rm option scaled =>
    (extendedOffset 2 option scaled (s.read64 rm)).map fun off => (s.read64 rn + off, 4)
  | .ldrRegX _ rn rm option scaled =>
    (extendedOffset 3 option scaled (s.read64 rm)).map fun off => (s.read64 rn + off, 8)

/-- The bytes an instruction stores to: the first address and how many; none for one that stores nothing. -/
def storeRange (i : Instr) (s : State) : Option (Nat × Nat) :=
  match i with
  | .strUimmW _ rn imm12 => some ((s.read64 rn + immOperand 2 imm12).toNat, 4)
  | .strUimmX _ rn imm12 => some ((s.read64 rn + immOperand 3 imm12).toNat, 8)
  | .subImmX _ _ _ => none
  | .addSregW _ _ _ _ _ => none
  | .ldrUimmW _ _ _ => none
  | .ldrUimmX _ _ _ => none
  | .ldrswUimm _ _ _ => none
  | .ldrRegW _ _ _ _ _ => none
  | .ldrRegX _ _ _ _ _ => none

/-- The byte at `a` is one the instruction stores to. -/
def storesTo (i : Instr) (s : State) (a : Nat) : Prop :=
  ∃ lo n, storeRange i s = some (lo, n) ∧ lo ≤ a ∧ a < lo + n

/-! ### The invariant -/

/-- What every state of a run satisfies: the memory in canonical form and inside MEM_SIZE, MEM_SIZE in its range, the
driver in Fetch while the run goes on, and after a DecodeFailure the bundle undefined and no operand produced. -/
def RunInvariant (s : State) : Prop :=
  s.mem.wf = true ∧ s.mem.below s.memSize = true ∧
  Config.minMemSize ≤ s.memSize ∧ s.memSize ≤ Config.maxMemSize ∧
  (s.status = .running → s.cyc.driver = .fetch) ∧
  (s.status = .failDecode →
    s.cyc.bundle = .undef ∧ s.cyc.opA = none ∧ s.cyc.opB = none ∧ s.cyc.dest = none)

end Sys2Proof.Machine
end

