-- ==== Sys2Proof/Certificates/Slice0/Obligations.lean ====
section
/-! DEFINITION. The statements for the provers. Each docstring names the rule of spec/ it rests on; where that text is
one the spec marks as its own ([derived], [decision Dn], [from general knowledge]) or a choice of the model (log n), it
says so. -/

open Sys2Proof Sys2Proof.Machine

/-! ### Encoding and decode -/

/-- Decode and encode agree: a well-formed instruction's word decodes to the instruction, every operand at every value.
Rests on 30_encoding.md §2 to §4, whose bit patterns the spec marks as general knowledge (log 16). -/
def Obligations.DecodeOfEncode : Prop :=
  ∀ i : Instr, i.wf = true → decodeWord (encode i) = .ok i

/-- Each word has one meaning: a word that decodes to an instruction is that instruction's word, and the instruction is
well formed. Rests on 30_encoding.md §2 to §4 (log 16). -/
def Obligations.EncodeOfDecode : Prop :=
  ∀ (w : Word32) (i : Instr), decodeWord w = .ok i → encode i = w ∧ i.wf = true

/-- 30_encoding.md R91, R92 (patterns marked general knowledge): a word of each row, its constraint true, decodes to the
row's instruction with the fields at the places of R83 to R86 and R90. -/
def Obligations.DecodeReadsTheFieldsOfEachRow : Prop :=
  ∀ w : Word32,
    let d := resolve (w.extractLsb' 0 5)
    let n := resolve (w.extractLsb' 5 5)
    let m := resolve (w.extractLsb' 16 5)
    let imm12 := w.extractLsb' 10 12
    let imm6 := w.extractLsb' 10 6
    let shift := w.extractLsb' 22 2
    let option := w.extractLsb' 13 3
    let scaled := w.getLsbD 12
    (w &&& 0xFFC00000#32 = 0xD1000000#32 → decodeWord w = .ok (.subImmX d n imm12)) ∧
    (w &&& 0xFF200000#32 = 0x0B000000#32 → shift ≠ 0b11#2 → imm6.toNat < 32 →
      decodeWord w = .ok (.addSregW d n m shift imm6)) ∧
    (w &&& 0xFFC00000#32 = 0xB9400000#32 → decodeWord w = .ok (.ldrUimmW d n imm12)) ∧
    (w &&& 0xFFC00000#32 = 0xF9400000#32 → decodeWord w = .ok (.ldrUimmX d n imm12)) ∧
    (w &&& 0xFFC00000#32 = 0xB9800000#32 → decodeWord w = .ok (.ldrswUimm d n imm12)) ∧
    (w &&& 0xFFC00000#32 = 0xB9000000#32 → decodeWord w = .ok (.strUimmW d n imm12)) ∧
    (w &&& 0xFFC00000#32 = 0xF9000000#32 → decodeWord w = .ok (.strUimmX d n imm12)) ∧
    (w &&& 0xFFE00C00#32 = 0xB8600800#32 → option.getLsbD 1 = true →
      decodeWord w = .ok (.ldrRegW d n m option scaled)) ∧
    (w &&& 0xFFE00C00#32 = 0xF8600800#32 → option.getLsbD 1 = true →
      decodeWord w = .ok (.ldrRegX d n m option scaled))

/-- 30_encoding.md R93, with R82 for the other groups: decode fails on exactly the words that match no row, or a row
whose constraint is false. -/
def Obligations.DecodeFailsOnExactlyTheOtherWords : Prop :=
  ∀ w : Word32, (∃ e, decodeWord w = .error e) ↔ ¬ MatchesTable w

/-- 30_encoding.md R82 (groups 0000 to 0011: decision D30): a word of a group without a sub-decoder is refused by its
group, whatever its other bits. -/
def Obligations.UnsupportedGroupsAreRefused : Prop :=
  ∀ w : Word32,
    (w.extractLsb' 26 3 = 0b101#3 → decodeWord w = .error (.unsupportedGroup .branchSystem)) ∧
    (w.extractLsb' 25 3 = 0b111#3 → decodeWord w = .error (.unsupportedGroup .fpSimd)) ∧
    (w.extractLsb' 27 2 = 0b00#2 → decodeWord w = .error (.unsupportedGroup .reserved))

/-- The words of the worked examples of 41_data_processing.md and 42_load_store.md, one for each instruction, decode to
the instructions written beside them there. -/
def Obligations.WorkedExampleWordsDecode : Prop :=
  decodeWord 0xD1001443#32 = .ok (.subImmX (.x 3) (.x 2) 5#12) ∧
  decodeWord 0x0B021064#32 = .ok (.addSregW (.x 4) (.x 3) (.x 2) 0b00#2 4#6) ∧
  decodeWord 0xB9400841#32 = .ok (.ldrUimmW (.x 1) (.x 2) 2#12) ∧
  decodeWord 0xF94007E7#32 = .ok (.ldrUimmX (.x 7) .sp 1#12) ∧
  decodeWord 0xB98003E6#32 = .ok (.ldrswUimm (.x 6) .sp 0#12) ∧
  decodeWord 0xB9000841#32 = .ok (.strUimmW (.x 1) (.x 2) 2#12) ∧
  decodeWord 0xF90007E2#32 = .ok (.strUimmX (.x 2) .sp 1#12) ∧
  decodeWord 0xB8627823#32 = .ok (.ldrRegW (.x 3) (.x 1) (.x 2) 0b011#3 true) ∧
  decodeWord 0xF865D824#32 = .ok (.ldrRegX (.x 4) (.x 1) (.x 5) 0b110#3 true)

/-! ### Registers -/

/-- 10_state.md R24: a field resolves to SP when it is 31 and to `GPR(f)` otherwise, for every register field of every
supported instruction. -/
def Obligations.RegisterFieldsResolve : Prop :=
  resolve 31#5 = .sp ∧
  (∀ (f : BitVec 5) (h : f.toNat < 31), resolve f = .x ⟨f.toNat, h⟩) ∧
  (∀ (w : Word32) (i : Instr), decodeWord w = .ok i →
    regOperands i = [resolve (w.extractLsb' 0 5), resolve (w.extractLsb' 5 5)] ∨
    regOperands i = [resolve (w.extractLsb' 0 5), resolve (w.extractLsb' 5 5), resolve (w.extractLsb' 16 5)])

/-- 10_state.md R25: the 64-bit view of field 31 reads and writes SP, that of any other field `f` reads and writes
`x[f]`. -/
def Obligations.SixtyFourBitView : Prop :=
  ∀ (s : State) (v : Word64),
    s.read64 (resolve 31#5) = s.sp ∧
    s.write64 (resolve 31#5) v = { s with sp := v } ∧
    ∀ (f : BitVec 5) (h : f.toNat < 31),
      s.read64 (resolve f) = s.x[f.toNat] ∧
      s.write64 (resolve f) v = { s with x := s.x.set f.toNat v }

/-- 10_state.md R27 (decision D1), R28: a write through a 32-bit reference puts the low 32 bits in the register and
clears bits [63:32], SP alike; a write through a 64-bit one puts the whole value; no other register changes. -/
def Obligations.RegisterWriteThroughReference : Prop :=
  ∀ (s : State) (r : Reg) (v : Word64),
    (s.writeRef ⟨r, .w32⟩ v).read64 r = BitVec.ofNat 64 (v.toNat % 2 ^ 32) ∧
    RegsSameBut r s (s.writeRef ⟨r, .w32⟩ v) ∧
    (s.writeRef ⟨r, .w64⟩ v).read64 r = v ∧
    RegsSameBut r s (s.writeRef ⟨r, .w64⟩ v)

/-- 10_state.md R26, R28 (reading): the 32-bit view of a register, SP alike, is the low 32 bits of the 64-bit view; a read
through a 32-bit reference is that value zero-extended, through a 64-bit one the 64-bit view. -/
def Obligations.RegisterReadThroughReference : Prop :=
  ∀ (s : State) (r : Reg),
    s.read32 r = BitVec.ofNat 32 (s.read64 r).toNat ∧
    s.readRef ⟨r, .w32⟩ = BitVec.ofNat 64 ((s.read64 r).toNat % 2 ^ 32) ∧
    s.readRef ⟨r, .w64⟩ = s.read64 r

/-! ### ALU and control signals -/

/-- 40_cycle_and_datapath.md R117 (wrap-around: decision D8; the floating arm: decision D17): Add and Sub modulo 2^64,
`ALUOp = None` fails, and the floating arm fails whatever `ALUOp` is. -/
def Obligations.ExecuteAddsSubtractsOrFails : Prop :=
  ∀ (mo : MemOp) (wb : WriteBackOp) (m : Bool) (op : ALUOp) (a b : Word64),
    executeStage ⟨.add, mo, wb, m, false⟩ a b = .ok (BitVec.ofNat 64 (a.toNat + b.toNat)) ∧
    executeStage ⟨.sub, mo, wb, m, false⟩ a b = .ok (BitVec.ofNat 64 (a.toNat + 2 ^ 64 - b.toNat)) ∧
    executeStage ⟨.none, mo, wb, m, false⟩ a b = .error (.execControl .aluOp) ∧
    executeStage ⟨op, mo, wb, m, true⟩ a b = .error (.execControl .floatingPoint)

/-- 10_state.md R35 (the undefined state: decision D18): an undefined bundle fails at the ALU and reaches neither memory
nor a register. -/
def Obligations.UndefinedBundleReachesNothing : Prop :=
  ∀ (a b : Word64) (dest : RegRef) (s : State), ∃ t,
    runStages ⟨Bundle.undef, a, b, dest⟩ s = .next t ∧
    t.status = .failExecControl ∧ t.failedSignal = some .aluOp ∧ t.faultAddr = s.faultAddr ∧ t.ir = s.ir ∧
    PreciseStop s t

/-- 60_exceptions.md R202 ("No word decodes to a bundle that triggers it", marked [derived]): no cycle of a running
block ends in an ExecControlFailure. -/
def Obligations.NoCycleEndsInExecControlFailure : Prop :=
  ∀ s t : State, s.status = .running → step s = .next t → t.status ≠ .failExecControl

/-! ### Operand forms -/

/-- 30_encoding.md R87 (marked general knowledge): the immediate operand is `imm12`, `4*imm12` or `8*imm12`. -/
def Obligations.ImmediateOperandValues : Prop :=
  ∀ imm12 : BitVec 12,
    (immOperand 0 imm12).toNat = imm12.toNat ∧
    (immOperand 2 imm12).toNat = 4 * imm12.toNat ∧
    (immOperand 3 imm12).toNat = 8 * imm12.toNat

/-- 30_encoding.md R88 with 00_scope.md R7 (reserved values: decision D9): exactly the selected shift is applied, as R7
defines it on integers, and the reserved fields give no operand. -/
def Obligations.ShiftedOperandValues : Prop :=
  ∀ (v : Word32) (imm6 : BitVec 6),
    (imm6.toNat < 32 →
      shiftedOperand 0b00#2 imm6 v = some (BitVec.ofNat 32 (v.toNat * 2 ^ imm6.toNat)) ∧
      shiftedOperand 0b01#2 imm6 v = some (BitVec.ofNat 32 (v.toNat / 2 ^ imm6.toNat)) ∧
      shiftedOperand 0b10#2 imm6 v = some (BitVec.ofInt 32 (v.toInt / 2 ^ imm6.toNat))) ∧
    shiftedOperand 0b11#2 imm6 v = none ∧
    (32 ≤ imm6.toNat → ∀ shift, shiftedOperand shift imm6 v = none)

/-- 30_encoding.md R89 (decision D11): each `option` value extends the index as its row says, the scale is `2^size` when
`S = 1` and 1 otherwise, and the values with `option[1] = 0` give no offset. -/
def Obligations.ExtendedOffsetValues : Prop :=
  ∀ (size : Nat) (scaled : Bool) (m : Word64),
    let factor := if scaled then 2 ^ size else 1
    extendedOffset size 0b010#3 scaled m = some (BitVec.ofNat 64 (m.toNat % 2 ^ 32 * factor)) ∧
    extendedOffset size 0b011#3 scaled m = some (BitVec.ofNat 64 (m.toNat * factor)) ∧
    extendedOffset size 0b110#3 scaled m = some (BitVec.ofInt 64 ((m.setWidth 32).toInt * factor)) ∧
    extendedOffset size 0b111#3 scaled m = some (BitVec.ofNat 64 (m.toNat * factor)) ∧
    ∀ option : BitVec 3, option.getLsbD 1 = false → extendedOffset size option scaled m = none

/-! ### Each instruction's result, completion and frame -/

/-- SUB_imm_X (41_data_processing.md R150; net effect marked [derived]): for every register, SP among them, and every
immediate, the cycle completes, `Rd` holds the difference modulo 2^64 and nothing else of the machine changes but PC and
the transients, which are those of R150's decode. -/
def Obligations.SubImmXResult : Prop :=
  ∀ (rd rn : Reg) (imm12 : BitVec 12) (s : State), ∃ t,
    exec (.subImmX rd rn imm12) s = .next t ∧
    t.read64 rd = s.read64 rn - BitVec.ofNat 64 imm12.toNat ∧
    RegsSameBut rd s t ∧ t.pc = s.pc + 4#64 ∧ BytesSame s t ∧ HostSame s t ∧ ReportSame s t ∧
    t.cyc = ⟨.fetch, ⟨.sub, .none, .registerWrite, false, false⟩, some (s.read64 rn),
      some (BitVec.ofNat 64 imm12.toNat), some ⟨rd, .w64⟩, some (s.read64 rn - BitVec.ofNat 64 imm12.toNat), none⟩

/-- ADD_sreg_W (41_data_processing.md R151; net effect marked [derived]): where the shift gives the operand `v`, the cycle
completes, `Rd` holds the 32-bit sum zero-extended, and nothing else changes but PC and the transients. -/
def Obligations.AddSregWResult : Prop :=
  ∀ (rd rn rm : Reg) (shift : BitVec 2) (imm6 : BitVec 6) (v : Word32) (s : State),
    shiftedOperand shift imm6 (s.read32 rm) = some v → ∃ t,
    exec (.addSregW rd rn rm shift imm6) s = .next t ∧
    t.read64 rd = (s.read32 rn + v).setWidth 64 ∧
    RegsSameBut rd s t ∧ t.pc = s.pc + 4#64 ∧ BytesSame s t ∧ HostSame s t ∧ ReportSame s t ∧
    t.cyc = ⟨.fetch, ⟨.add, .none, .registerWrite, false, false⟩, some ((s.read32 rn).setWidth 64),
      some (v.setWidth 64), some ⟨rd, .w32⟩, some ((s.read32 rn).setWidth 64 + v.setWidth 64), none⟩

/-- LDR_uimm_W (42_load_store.md R171; net effect marked [derived]): at an aligned address in memory the cycle completes,
`Rt` holds the 4 bytes zero-extended, and nothing else changes but PC and the transients. -/
def Obligations.LdrUimmWResult : Prop :=
  ∀ (rt rn : Reg) (imm12 : BitVec 12) (addr : Word64) (s : State),
    addr = s.read64 rn + immOperand 2 imm12 → addr.toNat % 4 = 0 → addr.toNat + 4 ≤ s.memSize → ∃ t,
    exec (.ldrUimmW rt rn imm12) s = .next t ∧
    t.read64 rt = (s.word32At addr.toNat).setWidth 64 ∧
    RegsSameBut rt s t ∧ t.pc = s.pc + 4#64 ∧ BytesSame s t ∧ HostSame s t ∧ ReportSame s t ∧
    t.cyc = ⟨.fetch, ⟨.add, .read32, .registerWrite, true, false⟩, some (s.read64 rn), some (immOperand 2 imm12),
      some ⟨rt, .w32⟩, some addr, some ((s.word32At addr.toNat).signExtend 64)⟩

/-- LDR_uimm_X (42_load_store.md R172; net effect marked [derived]): at an aligned address in memory the cycle completes,
`Rt` holds the 8 bytes, and nothing else changes but PC and the transients. -/
def Obligations.LdrUimmXResult : Prop :=
  ∀ (rt rn : Reg) (imm12 : BitVec 12) (addr : Word64) (s : State),
    addr = s.read64 rn + immOperand 3 imm12 → addr.toNat % 8 = 0 → addr.toNat + 8 ≤ s.memSize → ∃ t,
    exec (.ldrUimmX rt rn imm12) s = .next t ∧
    t.read64 rt = s.word64At addr.toNat ∧
    RegsSameBut rt s t ∧ t.pc = s.pc + 4#64 ∧ BytesSame s t ∧ HostSame s t ∧ ReportSame s t ∧
    t.cyc = ⟨.fetch, ⟨.add, .read64, .registerWrite, true, false⟩, some (s.read64 rn), some (immOperand 3 imm12),
      some ⟨rt, .w64⟩, some addr, some (s.word64At addr.toNat)⟩

/-- LDRSW_uimm (42_load_store.md R173; net effect marked [derived]): at an aligned address in memory the cycle completes,
`Rt` holds the 4 bytes sign-extended, and nothing else changes but PC and the transients. -/
def Obligations.LdrswUimmResult : Prop :=
  ∀ (rt rn : Reg) (imm12 : BitVec 12) (addr : Word64) (s : State),
    addr = s.read64 rn + immOperand 2 imm12 → addr.toNat % 4 = 0 → addr.toNat + 4 ≤ s.memSize → ∃ t,
    exec (.ldrswUimm rt rn imm12) s = .next t ∧
    t.read64 rt = BitVec.ofInt 64 (s.word32At addr.toNat).toInt ∧
    RegsSameBut rt s t ∧ t.pc = s.pc + 4#64 ∧ BytesSame s t ∧ HostSame s t ∧ ReportSame s t ∧
    t.cyc = ⟨.fetch, ⟨.add, .read32, .registerWrite, true, false⟩, some (s.read64 rn), some (immOperand 2 imm12),
      some ⟨rt, .w64⟩, some addr, some ((s.word32At addr.toNat).signExtend 64)⟩

/-- STR_uimm_W (42_load_store.md R174; net effect marked [derived]): at an aligned address in memory the cycle completes,
the 4 bytes at the effective address hold the low 32 bits of `Rt`, every other byte and every register is unchanged, and
nothing else changes but PC and the transients. -/
def Obligations.StrUimmWResult : Prop :=
  ∀ (rt rn : Reg) (imm12 : BitVec 12) (addr : Word64) (s : State),
    addr = s.read64 rn + immOperand 2 imm12 → addr.toNat % 4 = 0 → addr.toNat + 4 ≤ s.memSize → ∃ t,
    exec (.strUimmW rt rn imm12) s = .next t ∧
    t.word32At addr.toNat = s.read32 rt ∧
    BytesSameOutside addr.toNat 4 s t ∧ RegsSame s t ∧ t.pc = s.pc + 4#64 ∧ HostSame s t ∧ ReportSame s t ∧
    t.cyc = ⟨.fetch, ⟨.add, .write32, .none, false, false⟩, some (s.read64 rn), some (immOperand 2 imm12),
      some ⟨rt, .w32⟩, some addr, none⟩

/-- STR_uimm_X (42_load_store.md R175; net effect marked [derived]): at an aligned address in memory the cycle completes,
the 8 bytes at the effective address hold `Rt`, every other byte and every register is unchanged, and nothing else changes
but PC and the transients. -/
def Obligations.StrUimmXResult : Prop :=
  ∀ (rt rn : Reg) (imm12 : BitVec 12) (addr : Word64) (s : State),
    addr = s.read64 rn + immOperand 3 imm12 → addr.toNat % 8 = 0 → addr.toNat + 8 ≤ s.memSize → ∃ t,
    exec (.strUimmX rt rn imm12) s = .next t ∧
    t.word64At addr.toNat = s.read64 rt ∧
    BytesSameOutside addr.toNat 8 s t ∧ RegsSame s t ∧ t.pc = s.pc + 4#64 ∧ HostSame s t ∧ ReportSame s t ∧
    t.cyc = ⟨.fetch, ⟨.add, .write64, .none, false, false⟩, some (s.read64 rn), some (immOperand 3 imm12),
      some ⟨rt, .w64⟩, some addr, none⟩

/-- LDR_reg_W (42_load_store.md R176; net effect marked [derived]): where the index gives the offset `off`, at an aligned
address in memory the cycle completes, `Rt` holds the 4 bytes zero-extended, and nothing else changes but PC and the
transients. -/
def Obligations.LdrRegWResult : Prop :=
  ∀ (rt rn rm : Reg) (option : BitVec 3) (scaled : Bool) (off addr : Word64) (s : State),
    extendedOffset 2 option scaled (s.read64 rm) = some off → addr = s.read64 rn + off →
    addr.toNat % 4 = 0 → addr.toNat + 4 ≤ s.memSize → ∃ t,
    exec (.ldrRegW rt rn rm option scaled) s = .next t ∧
    t.read64 rt = (s.word32At addr.toNat).setWidth 64 ∧
    RegsSameBut rt s t ∧ t.pc = s.pc + 4#64 ∧ BytesSame s t ∧ HostSame s t ∧ ReportSame s t ∧
    t.cyc = ⟨.fetch, ⟨.add, .read32, .registerWrite, true, false⟩, some (s.read64 rn), some off,
      some ⟨rt, .w32⟩, some addr, some ((s.word32At addr.toNat).signExtend 64)⟩

/-- LDR_reg_X (42_load_store.md R177; net effect marked [derived]): where the index gives the offset `off`, at an aligned
address in memory the cycle completes, `Rt` holds the 8 bytes, and nothing else changes but PC and the transients. -/
def Obligations.LdrRegXResult : Prop :=
  ∀ (rt rn rm : Reg) (option : BitVec 3) (scaled : Bool) (off addr : Word64) (s : State),
    extendedOffset 3 option scaled (s.read64 rm) = some off → addr = s.read64 rn + off →
    addr.toNat % 8 = 0 → addr.toNat + 8 ≤ s.memSize → ∃ t,
    exec (.ldrRegX rt rn rm option scaled) s = .next t ∧
    t.read64 rt = s.word64At addr.toNat ∧
    RegsSameBut rt s t ∧ t.pc = s.pc + 4#64 ∧ BytesSame s t ∧ HostSame s t ∧ ReportSame s t ∧
    t.cyc = ⟨.fetch, ⟨.add, .read64, .registerWrite, true, false⟩, some (s.read64 rn), some off,
      some ⟨rt, .w64⟩, some addr, some (s.word64At addr.toNat)⟩

/-- The reserved fields of ADD_sreg_W, LDR_reg_W and LDR_reg_X (pseudocode of 41_data_processing.md R151 and
42_load_store.md R176, R177; decisions D9, D11): an instruction term whose constraint is false raises DecodeFailure and
changes nothing but status. The decoder refuses such a word before the meaning is asked (log 13). -/
def Obligations.ReservedFieldsRaiseDecodeFailure : Prop :=
  ∀ (i : Instr) (s : State), i.wf = false → ∃ t,
    exec i s = .next t ∧ t.status = .failDecode ∧ PreciseStop s t ∧
    t.ir = s.ir ∧ t.faultAddr = s.faultAddr ∧ t.failedSignal = s.failedSignal ∧ t.cyc = s.cyc

/-- 42_load_store.md R170 with 60_exceptions.md R203 (b): a load or store whose effective address is misaligned for its
width or runs past MEM_SIZE raises AddressingFailure of that address, and changes no register, no byte and not PC. -/
def Obligations.FailedAccessIsPrecise : Prop :=
  ∀ (i : Instr) (s : State) (addr : Word64) (n : Nat), dataAccess i s = some (addr, n) →
    ¬ (addr.toNat % n = 0 ∧ addr.toNat + n ≤ s.memSize) → ∃ t,
    exec i s = .next t ∧ t.status = .failAddress ∧ t.faultAddr = addr ∧ PreciseStop s t ∧
    t.ir = s.ir ∧ t.failedSignal = s.failedSignal

/-! ### Frames over all instructions -/

/-- 40_cycle_and_datapath.md R127 (marked [derived]): whatever the instruction, its meaning changes no register but its
destination and no byte but those it stores to, and never IR or a host input; a store changes no register, every other
instruction no byte. -/
def Obligations.EveryInstructionKeepsItsFrame : Prop :=
  ∀ (i : Instr) (s t : State), exec i s = .next t →
    (∀ r : Reg, destOf i ≠ some r → t.read64 r = s.read64 r) ∧
    (∀ a : Nat, ¬ storesTo i s a → t.byteAt a = s.byteAt a) ∧
    HostSame s t ∧ t.ir = s.ir

/-- 40_cycle_and_datapath.md R124 (decision D7): on a running block an instruction either completes, with PC advanced by
4, status still RUNNING and no failure recorded, or fails, with PC where it was. -/
def Obligations.PcAdvancesExactlyOnSuccess : Prop :=
  ∀ (i : Instr) (s t : State), s.status = .running → exec i s = .next t →
    (t.status = .running ∧ t.pc = s.pc + 4#64 ∧ t.faultAddr = s.faultAddr ∧ t.failedSignal = s.failedSignal) ∨
    (t.status.failed = true ∧ t.pc = s.pc)

/-! ### The step -/

/-- A step runs the decoded instruction (40_cycle_and_datapath.md R126): when a cycle starts, PC is aligned and in memory,
and the word there decodes to `i`, the step is `exec i` on the state with that word in IR, the transients fresh and the
driver in Decode. -/
def Obligations.StepRunsTheDecodedInstruction : Prop :=
  ∀ (s : State) (i : Instr), s.cycleStarts → s.pc.toNat % 4 = 0 → s.pc.toNat + 4 ≤ s.memSize →
    decodeWord (s.word32At s.pc.toNat) = .ok i →
    step s = exec i { s with ir := s.word32At s.pc.toNat, cyc := ⟨.decode, .undef, none, none, none, none, none⟩ }

/-- A word placed where the next fetch reads it is the word that runs (20_memory.md R53; 40_cycle_and_datapath.md R126;
`withFetchWord` stands for the load from outside, log 14): the step after the placing is the placed instruction's meaning. -/
def Obligations.PlacedWordRuns : Prop :=
  ∀ (s : State) (nbits w : Nat) (i : Instr), s.cycleStarts → s.pc.toNat % 4 = 0 → s.pc.toNat + 4 ≤ s.memSize →
    decodeTableWord nbits w = some i →
    step (s.withFetchWord nbits w) = exec i { s.withFetchWord nbits w with
      ir := tableWord nbits w, cyc := ⟨.decode, .undef, none, none, none, none, none⟩ }

/-- 40_cycle_and_datapath.md R114 with 60_exceptions.md R203 (a): a PC that is misaligned or out of memory ends the cycle
with AddressingFailure(PC); IR keeps the previous word. That the transients are then those of a cycle just begun is the
model's choice (logs 7 to 9). -/
def Obligations.FailedFetchStopsTheRun : Prop :=
  ∀ s : State, s.cycleStarts → ¬ (s.pc.toNat % 4 = 0 ∧ s.pc.toNat + 4 ≤ s.memSize) → ∃ t,
    step s = .next t ∧ t.status = .failAddress ∧ t.faultAddr = s.pc ∧ t.ir = s.ir ∧ PreciseStop s t ∧
    t.cyc = .fresh

/-- 60_exceptions.md R201 (a), (b), (c): on a fetched word that is none of the nine instructions the decoder raises
DecodeFailure; the word stays in IR, and no operand, control signal, register, byte or PC changes. -/
def Obligations.UndecodableWordStopsTheRun : Prop :=
  ∀ s : State, s.cycleStarts → s.pc.toNat % 4 = 0 → s.pc.toNat + 4 ≤ s.memSize →
    ¬ MatchesTable (s.word32At s.pc.toNat) → ∃ t,
    step s = .next t ∧ t.status = .failDecode ∧ t.ir = s.word32At s.pc.toNat ∧ PreciseStop s t ∧
    t.faultAddr = s.faultAddr ∧ t.failedSignal = s.failedSignal ∧
    t.cyc.bundle = .undef ∧ t.cyc.opA = none ∧ t.cyc.opB = none ∧ t.cyc.dest = none

/-- 60_exceptions.md R203: a cycle ends in an AddressingFailure exactly when the fetch's check of PC fails, or the fetched
instruction's access check fails, and `fault_addr` is then the address that failed. -/
def Obligations.AddressingFailureExactlyWhenACheckFails : Prop :=
  ∀ (s : State) (a : Word64), s.cycleStarts →
    ((∃ t, step s = .next t ∧ t.status = .failAddress ∧ t.faultAddr = a) ↔
      (a = s.pc ∧ ¬ (s.pc.toNat % 4 = 0 ∧ s.pc.toNat + 4 ≤ s.memSize)) ∨
      ((s.pc.toNat % 4 = 0 ∧ s.pc.toNat + 4 ≤ s.memSize) ∧
        ∃ i n, decodeWord (s.word32At s.pc.toNat) = .ok i ∧ dataAccess i s = some (a, n) ∧
          ¬ (a.toNat % n = 0 ∧ a.toNat + n ≤ s.memSize)))

/-- 40_cycle_and_datapath.md R125: a failure in any stage is fatal. The later stages do not run (no register,
byte or host input is changed), PC is not advanced, status takes the value of the failure of the stage that failed, and the
run has stopped for good. -/
def Obligations.FailureIsFatalAndPrecise : Prop :=
  ∀ s t : State, s.cycleStarts → step s = .next t → t.status ≠ .running →
    t.status.failed = true ∧ PreciseStop s t ∧
    (¬ (s.pc.toNat % 4 = 0 ∧ s.pc.toNat + 4 ≤ s.memSize) → t.status = .failAddress ∧ t.ir = s.ir) ∧
    ((s.pc.toNat % 4 = 0 ∧ s.pc.toNat + 4 ≤ s.memSize) → t.ir = s.word32At s.pc.toNat ∧
      (∀ e, decodeWord (s.word32At s.pc.toNat) = .error e → t.status = .failDecode) ∧
      (∀ i, decodeWord (s.word32At s.pc.toNat) = .ok i → t.status = .failAddress)) ∧
    ∀ n : Nat, Sys2Proof.core.run n t = .next t

/-- 40_cycle_and_datapath.md R127 (marked [derived]): a successful step loads IR, advances PC by 4, and changes no register
but the instruction's destination, no byte but those it stores to, and no report or host input. -/
def Obligations.SuccessfulStepKeepsItsFrame : Prop :=
  ∀ s t : State, s.cycleStarts → step s = .next t → t.status = .running →
    ∃ i, decodeWord (s.word32At s.pc.toNat) = .ok i ∧
      t.ir = s.word32At s.pc.toNat ∧ t.pc = s.pc + 4#64 ∧
      (∀ r : Reg, destOf i ≠ some r → t.read64 r = s.read64 r) ∧
      (∀ a : Nat, ¬ storesTo i s a → t.byteAt a = s.byteAt a) ∧
      t.faultAddr = s.faultAddr ∧ t.failedSignal = s.failedSignal ∧ HostSame s t ∧ t.cyc.driver = .fetch

/-- 40_cycle_and_datapath.md R128 (decision D28): once status is not RUNNING every state of the run is the same. -/
def Obligations.HaltedStateIsFinal : Prop :=
  ∀ (n : Nat) (s : State), s.status ≠ .running → Sys2Proof.core.run n s = .next s

/-- 40_cycle_and_datapath.md R112 (decision D13): with `finished` asserted, by the host's level or by PC at STOP_PC, a
running block stops as FINISHED before the fetch, even one that would fail, and nothing else changes. -/
def Obligations.FinishedStopsBeforeTheFetch : Prop :=
  ∀ s : State, s.status = .running → s.finishedIn = true ∨ s.stopPc = some s.pc →
    step s = .next { s with status := .finished }

/-- 40_cycle_and_datapath.md R129 (marked [derived]): every state has a next one; the model never stops in a fault or a
refusal of the host's (log 11). -/
def Obligations.EveryStateHasANextState : Prop :=
  ∀ s : State, ∃ t, step s = .next t

/-! ### Memory -/

/-- 20_memory.md R56: a read in bounds and aligned gives the value whose bits [8k+7:8k] are the byte at `addr + k`; a
failed check raises AddressingFailure. A read has no state to change: it answers a value only. -/
def Obligations.ReadGivesTheBytesInOrder : Prop :=
  ∀ (s : State) (addr : Word64) (n : Nat), n = 4 ∨ n = 8 →
    (addr.toNat % n = 0 ∧ addr.toNat + n ≤ s.memSize → ∃ v, s.memRead addr n = .ok v ∧
      ∀ k, k < n → v.extractLsb' (8 * k) 8 = s.byteAt (addr.toNat + k)) ∧
    (¬ (addr.toNat % n = 0 ∧ addr.toNat + n ≤ s.memSize) → s.memRead addr n = .error (.addressing addr))

/-- 20_memory.md R57: a write in bounds and aligned sets the byte at `addr + k` to bits [8k+7:8k] and changes no other byte
and no other state; a failed check raises AddressingFailure. -/
def Obligations.WriteSetsExactlyItsBytes : Prop :=
  ∀ (s : State) (addr : Word64) (n : Nat) (v : BitVec (8 * n)), n = 4 ∨ n = 8 →
    (addr.toNat % n = 0 ∧ addr.toNat + n ≤ s.memSize → ∃ t, s.memWrite addr n v = .ok t ∧
      (∀ k, k < n → t.byteAt (addr.toNat + k) = v.extractLsb' (8 * k) 8) ∧
      BytesSameOutside addr.toNat n s t ∧ t = { s with mem := t.mem }) ∧
    (¬ (addr.toNat % n = 0 ∧ addr.toNat + n ≤ s.memSize) → s.memWrite addr n v = .error (.addressing addr))

/-- 20_memory.md R59: a value written in bounds and aligned is read back unchanged at the same address and width, for both
widths. -/
def Obligations.WriteThenReadReturnsTheValue : Prop :=
  ∀ (s : State) (addr : Word64) (n : Nat) (v : BitVec (8 * n)), n = 4 ∨ n = 8 →
    addr.toNat % n = 0 → addr.toNat + n ≤ s.memSize →
    ∃ t, s.memWrite addr n v = .ok t ∧ t.memRead addr n = .ok v

/-- 20_memory.md R58 (marked [derived]): an 8-byte write is seen by 4-byte reads as its low and high half, and two 4-byte
writes by an 8-byte read as `(high, low)`. -/
def Obligations.MixedWidthAccessesAgree : Prop :=
  ∀ (s : State) (a : Word64), a.toNat % 8 = 0 → a.toNat + 8 ≤ s.memSize →
    (∀ v : Word64, ∃ t, s.memWrite a 8 v = .ok t ∧
      t.memRead a 4 = .ok (v.extractLsb' 0 32) ∧ t.memRead (a + 4#64) 4 = .ok (v.extractLsb' 32 32)) ∧
    (∀ u w : Word32, ∃ t t', s.memWrite a 4 u = .ok t ∧ t.memWrite (a + 4#64) 4 w = .ok t' ∧
      t'.memRead a 8 = .ok (w ++ u : BitVec (32 + 32)))

/-- STR X then LDR X with the same base and offset (42_load_store.md R172, R175, net effects marked [derived]): the loaded
register holds what the stored one held, whatever the registers are. -/
def Obligations.StoreThenLoadMovesTheRegister : Prop :=
  ∀ (rs rt rn : Reg) (imm12 : BitVec 12) (s : State),
    (s.read64 rn + immOperand 3 imm12).toNat % 8 = 0 →
    (s.read64 rn + immOperand 3 imm12).toNat + 8 ≤ s.memSize →
    ∃ t u, exec (.strUimmX rs rn imm12) s = .next t ∧ exec (.ldrUimmX rt rn imm12) t = .next u ∧
      u.read64 rt = s.read64 rs

/-- 20_memory.md R66 (marked [derived]): a word that a store writes at the next instruction's address is the word the next
step fetches. -/
def Obligations.StoreIsSeenByTheNextFetch : Prop :=
  ∀ (rt rn : Reg) (imm12 : BitVec 12) (s : State), s.cycleStarts →
    s.pc.toNat % 4 = 0 → s.pc.toNat + 4 ≤ s.memSize →
    decodeWord (s.word32At s.pc.toNat) = .ok (.strUimmW rt rn imm12) →
    s.read64 rn + immOperand 2 imm12 = s.pc + 4#64 →
    (s.pc + 4#64).toNat + 4 ≤ s.memSize → s.stopPc ≠ some (s.pc + 4#64) →
    ∃ t u, step s = .next t ∧ step t = .next u ∧ u.ir = s.read32 rt

/-- The model's canonical form of memory: two memories in the form that read the same at every address are equal. -/
def Obligations.MemoriesThatReadAlikeAreEqual : Prop :=
  ∀ m m' : Memory, m.wf = true → m'.wf = true → (∀ a : Nat, m.byte a = m'.byte a) → m = m'

/-! ### Start of a run, invariant, end of a run -/

/-- What 10_state.md R43 gives `State.reset`: status RUNNING, undefined bundle, no destination, driver in Fetch, PC at
START_PC (0 is the model's choice, log 1) and every byte 0 (decision D15; the empty IMAGE is the model's choice, log 1). -/
def Obligations.ResetValues : Prop :=
  State.reset.status = .running ∧ State.reset.cyc.bundle = ⟨.none, .none, .none, false, false⟩ ∧
  State.reset.cyc.dest = none ∧ State.reset.cyc.driver = .fetch ∧ State.reset.pc = 0#64 ∧
  ∀ a : Nat, State.reset.byteAt a = 0#8

/-- 70_reset_and_hazards.md R230, 10_state.md R43 (decisions D14, D15): an image that fits starts a run with the image at
address 0, zeros after it, the host's registers, PC at START_PC, status RUNNING, undefined bundle, driver in Fetch. -/
def Obligations.StartSequenceValues : Prop :=
  ∀ h : Config.HostInputs, h.image.length ≤ h.memSize → ∃ s, State.start h = .ok s ∧
    (∀ a : Nat, s.byteAt a = h.image.getD a 0#8) ∧
    s.x = h.regInit ∧ s.sp = h.spInit ∧ s.pc = h.startPc ∧ s.status = .running ∧
    s.cyc.bundle = .undef ∧ s.cyc.dest = none ∧ s.cyc.driver = .fetch ∧
    s.memSize = h.memSize ∧ s.finishedIn = h.finished ∧ s.stopPc = h.stopPc

/-- 70_reset_and_hazards.md R231: an image longer than MEM_SIZE starts no run, and one that fits does. -/
def Obligations.OversizedImageStartsNoRun : Prop :=
  ∀ h : Config.HostInputs,
    (h.memSize < h.image.length → State.start h = .error .imageTooLarge) ∧
    (h.image.length ≤ h.memSize → ∃ s, State.start h = .ok s)

/-- 70_reset_and_hazards.md R232 (decision D25): START_PC is not checked at the start; a misaligned or outlying one fails
at the first fetch, with AddressingFailure(START_PC). -/
def Obligations.BadStartPcFailsAtTheFirstFetch : Prop :=
  ∀ h : Config.HostInputs, h.image.length ≤ h.memSize → h.finished = false → h.stopPc ≠ some h.startPc →
    ¬ (h.startPc.toNat % 4 = 0 ∧ h.startPc.toNat + 4 ≤ h.memSize) → ∃ s t,
    State.start h = .ok s ∧ step s = .next t ∧ t.status = .failAddress ∧ t.faultAddr = h.startPc

/-- The invariant holds at reset (the values are the model's choice, logs 1 to 3). -/
def Obligations.ResetSatisfiesTheInvariant : Prop := RunInvariant State.reset

/-- The invariant holds at the start of every run with a legal MEM_SIZE and an image that fits
(70_reset_and_hazards.md R230). -/
def Obligations.EveryStartSatisfiesTheInvariant : Prop :=
  ∀ (h : Config.HostInputs) (s : State), h.legal = true → State.start h = .ok s → RunInvariant s

/-- Every step keeps the invariant: memory in canonical form and inside MEM_SIZE, MEM_SIZE in its range, the driver in
Fetch while running, and after a DecodeFailure the bundle undefined and no operand produced (20_memory.md R50;
30_encoding.md R95; 40_cycle_and_datapath.md R110). -/
def Obligations.StepKeepsTheInvariant : Prop :=
  ∀ s t : State, RunInvariant s → step s = .next t → RunInvariant t

/-- 20_memory.md R50, 10_state.md R32: MEM_SIZE does not change during a run, and the block never writes `finished` or
STOP_PC. -/
def Obligations.RunsKeepTheHostInputs : Prop :=
  ∀ (n : Nat) (s t : State), Sys2Proof.core.run n s = .next t → HostSame s t

/-- 70_reset_and_hazards.md R235 (marked [derived]): every run ends: one cycle more than `floor((MEM_SIZE - PC) / 4)` and
status is no longer RUNNING, from every state whose MEM_SIZE is in its range. -/
def Obligations.EveryRunEnds : Prop :=
  ∀ s : State, s.memSize ≤ Config.maxMemSize → ∃ t,
    Sys2Proof.core.run ((s.memSize - s.pc.toNat) / 4 + 1) s = .next t ∧ t.status ≠ .running

/-- No step changes PC modulo 4 (40_cycle_and_datapath.md R124, decision D7: the only change is by 4). -/
def Obligations.PcAlignmentNeverChanges : Prop :=
  ∀ (n : Nat) (s t : State), Sys2Proof.core.run n s = .next t → t.pc.toNat % 4 = s.pc.toNat % 4

/-- 60_exceptions.md R200, R216 (decision D16): the run-result codes. -/
def Obligations.RunResultCodes : Prop :=
  Status.running.resultCode = none ∧ Status.finished.resultCode = some 0 ∧
  Status.failDecode.resultCode = some 1 ∧ Status.failExecControl.resultCode = some 2 ∧
  Status.failAddress.resultCode = some 3 ∧
  ∀ st : Status, st.failed = true ↔ ∃ c, st.resultCode = some c ∧ c ≠ 0

/-! ### What never matters -/

/-- 10_state.md R41 ("must not persist stale values across cycles") and R43: two states that differ only in IR, fault_addr,
the failed signal and the transients, all of which the spec leaves unspecified at the start of a run, run alike: after
any number of steps their registers, PC, memory, status and host inputs agree. -/
def Obligations.UnspecifiedStartValuesNeverMatter : Prop :=
  ∀ (n : Nat) (s s' : State), ArchSame s s' → ∃ t t',
    Sys2Proof.core.run n s = .next t ∧ Sys2Proof.core.run n s' = .next t' ∧ ArchSame t t'

/-- 10_state.md R35, R41: a cycle's outcome, transients and IR among it, does not depend on the transients of the cycle
before. -/
def Obligations.TransientsAreRecreated : Prop :=
  ∀ (s : State) (u : Transients), s.cycleStarts → step { s with cyc := u } = step s

/-- 41_data_processing.md R151, corner cases (marked [derived]): the result of ADD_sreg_W depends on the low 32 bits of
`Rn` and `Rm` only. -/
def Obligations.AddIgnoresTheUpperHalves : Prop :=
  ∀ (rd rn rm : Reg) (shift : BitVec 2) (imm6 : BitVec 6) (s s' : State),
    shiftAllowed shift = true → amountAllowed imm6 = true →
    s.read32 rn = s'.read32 rn → s.read32 rm = s'.read32 rm → ∃ t t',
    exec (.addSregW rd rn rm shift imm6) s = .next t ∧ exec (.addSregW rd rn rm shift imm6) s' = .next t' ∧
    t.read64 rd = t'.read64 rd
end

