-- ==== Sys2Proof/Laws/State.lean ====
section
/-! SUPPORT. What each update of the state does to each field, and to each read, so that no proof unfolds a record
update. -/

namespace Sys2Proof.Machine

variable (s : State)


/-! ### writeDoubleWord -/

@[simp] theorem State.writeDoubleWord_sp (n : Fin 31) (v : Word64) : (s.writeDoubleWord n v).sp = s.sp := rfl
@[simp] theorem State.writeDoubleWord_pc (n : Fin 31) (v : Word64) : (s.writeDoubleWord n v).pc = s.pc := rfl
@[simp] theorem State.writeDoubleWord_ir (n : Fin 31) (v : Word64) : (s.writeDoubleWord n v).ir = s.ir := rfl
@[simp] theorem State.writeDoubleWord_status (n : Fin 31) (v : Word64) : (s.writeDoubleWord n v).status = s.status := rfl
@[simp] theorem State.writeDoubleWord_faultAddr (n : Fin 31) (v : Word64) : (s.writeDoubleWord n v).faultAddr = s.faultAddr := rfl
@[simp] theorem State.writeDoubleWord_failedSignal (n : Fin 31) (v : Word64) : (s.writeDoubleWord n v).failedSignal = s.failedSignal := rfl
@[simp] theorem State.writeDoubleWord_cyc (n : Fin 31) (v : Word64) : (s.writeDoubleWord n v).cyc = s.cyc := rfl
@[simp] theorem State.writeDoubleWord_mem (n : Fin 31) (v : Word64) : (s.writeDoubleWord n v).mem = s.mem := rfl
@[simp] theorem State.writeDoubleWord_memSize (n : Fin 31) (v : Word64) : (s.writeDoubleWord n v).memSize = s.memSize := rfl
@[simp] theorem State.writeDoubleWord_finishedIn (n : Fin 31) (v : Word64) : (s.writeDoubleWord n v).finishedIn = s.finishedIn := rfl
@[simp] theorem State.writeDoubleWord_stopPc (n : Fin 31) (v : Word64) : (s.writeDoubleWord n v).stopPc = s.stopPc := rfl

/-! ### write64 -/

@[simp] theorem State.write64_pc (r : Reg) (v : Word64) : (s.write64 r v).pc = s.pc := by cases r <;> rfl
@[simp] theorem State.write64_ir (r : Reg) (v : Word64) : (s.write64 r v).ir = s.ir := by cases r <;> rfl
@[simp] theorem State.write64_status (r : Reg) (v : Word64) : (s.write64 r v).status = s.status := by cases r <;> rfl
@[simp] theorem State.write64_faultAddr (r : Reg) (v : Word64) : (s.write64 r v).faultAddr = s.faultAddr := by cases r <;> rfl
@[simp] theorem State.write64_failedSignal (r : Reg) (v : Word64) : (s.write64 r v).failedSignal = s.failedSignal := by cases r <;> rfl
@[simp] theorem State.write64_cyc (r : Reg) (v : Word64) : (s.write64 r v).cyc = s.cyc := by cases r <;> rfl
@[simp] theorem State.write64_mem (r : Reg) (v : Word64) : (s.write64 r v).mem = s.mem := by cases r <;> rfl
@[simp] theorem State.write64_memSize (r : Reg) (v : Word64) : (s.write64 r v).memSize = s.memSize := by cases r <;> rfl
@[simp] theorem State.write64_finishedIn (r : Reg) (v : Word64) : (s.write64 r v).finishedIn = s.finishedIn := by cases r <;> rfl
@[simp] theorem State.write64_stopPc (r : Reg) (v : Word64) : (s.write64 r v).stopPc = s.stopPc := by cases r <;> rfl

/-! ### write32 -/

@[simp] theorem State.write32_pc (r : Reg) (v : Word32) : (s.write32 r v).pc = s.pc := by cases r <;> rfl
@[simp] theorem State.write32_ir (r : Reg) (v : Word32) : (s.write32 r v).ir = s.ir := by cases r <;> rfl
@[simp] theorem State.write32_status (r : Reg) (v : Word32) : (s.write32 r v).status = s.status := by cases r <;> rfl
@[simp] theorem State.write32_faultAddr (r : Reg) (v : Word32) : (s.write32 r v).faultAddr = s.faultAddr := by cases r <;> rfl
@[simp] theorem State.write32_failedSignal (r : Reg) (v : Word32) : (s.write32 r v).failedSignal = s.failedSignal := by cases r <;> rfl
@[simp] theorem State.write32_cyc (r : Reg) (v : Word32) : (s.write32 r v).cyc = s.cyc := by cases r <;> rfl
@[simp] theorem State.write32_mem (r : Reg) (v : Word32) : (s.write32 r v).mem = s.mem := by cases r <;> rfl
@[simp] theorem State.write32_memSize (r : Reg) (v : Word32) : (s.write32 r v).memSize = s.memSize := by cases r <;> rfl
@[simp] theorem State.write32_finishedIn (r : Reg) (v : Word32) : (s.write32 r v).finishedIn = s.finishedIn := by cases r <;> rfl
@[simp] theorem State.write32_stopPc (r : Reg) (v : Word32) : (s.write32 r v).stopPc = s.stopPc := by cases r <;> rfl

/-! ### writeRef -/

@[simp] theorem State.writeRef_pc (ref : RegRef) (v : Word64) : (s.writeRef ref v).pc = s.pc := by obtain ⟨r, w⟩ := ref; cases r <;> cases w <;> rfl
@[simp] theorem State.writeRef_ir (ref : RegRef) (v : Word64) : (s.writeRef ref v).ir = s.ir := by obtain ⟨r, w⟩ := ref; cases r <;> cases w <;> rfl
@[simp] theorem State.writeRef_status (ref : RegRef) (v : Word64) : (s.writeRef ref v).status = s.status := by obtain ⟨r, w⟩ := ref; cases r <;> cases w <;> rfl
@[simp] theorem State.writeRef_faultAddr (ref : RegRef) (v : Word64) : (s.writeRef ref v).faultAddr = s.faultAddr := by obtain ⟨r, w⟩ := ref; cases r <;> cases w <;> rfl
@[simp] theorem State.writeRef_failedSignal (ref : RegRef) (v : Word64) : (s.writeRef ref v).failedSignal = s.failedSignal := by obtain ⟨r, w⟩ := ref; cases r <;> cases w <;> rfl
@[simp] theorem State.writeRef_cyc (ref : RegRef) (v : Word64) : (s.writeRef ref v).cyc = s.cyc := by obtain ⟨r, w⟩ := ref; cases r <;> cases w <;> rfl
@[simp] theorem State.writeRef_mem (ref : RegRef) (v : Word64) : (s.writeRef ref v).mem = s.mem := by obtain ⟨r, w⟩ := ref; cases r <;> cases w <;> rfl
@[simp] theorem State.writeRef_memSize (ref : RegRef) (v : Word64) : (s.writeRef ref v).memSize = s.memSize := by obtain ⟨r, w⟩ := ref; cases r <;> cases w <;> rfl
@[simp] theorem State.writeRef_finishedIn (ref : RegRef) (v : Word64) : (s.writeRef ref v).finishedIn = s.finishedIn := by obtain ⟨r, w⟩ := ref; cases r <;> cases w <;> rfl
@[simp] theorem State.writeRef_stopPc (ref : RegRef) (v : Word64) : (s.writeRef ref v).stopPc = s.stopPc := by obtain ⟨r, w⟩ := ref; cases r <;> cases w <;> rfl

/-! ### raise -/

@[simp] theorem State.raise_x (f : Failure) : (s.raise f).x = s.x := by cases f <;> rfl
@[simp] theorem State.raise_sp (f : Failure) : (s.raise f).sp = s.sp := by cases f <;> rfl
@[simp] theorem State.raise_pc (f : Failure) : (s.raise f).pc = s.pc := by cases f <;> rfl
@[simp] theorem State.raise_ir (f : Failure) : (s.raise f).ir = s.ir := by cases f <;> rfl
@[simp] theorem State.raise_cyc (f : Failure) : (s.raise f).cyc = s.cyc := by cases f <;> rfl
@[simp] theorem State.raise_mem (f : Failure) : (s.raise f).mem = s.mem := by cases f <;> rfl
@[simp] theorem State.raise_memSize (f : Failure) : (s.raise f).memSize = s.memSize := by cases f <;> rfl
@[simp] theorem State.raise_finishedIn (f : Failure) : (s.raise f).finishedIn = s.finishedIn := by cases f <;> rfl
@[simp] theorem State.raise_stopPc (f : Failure) : (s.raise f).stopPc = s.stopPc := by cases f <;> rfl
@[simp] theorem State.raise_decode_status (w : Word32) : (s.raise (.decode w)).status = .failDecode := rfl
@[simp] theorem State.raise_decode_faultAddr (w : Word32) : (s.raise (.decode w)).faultAddr = s.faultAddr := rfl
@[simp] theorem State.raise_decode_failedSignal (w : Word32) :
    (s.raise (.decode w)).failedSignal = s.failedSignal := rfl
@[simp] theorem State.raise_execControl_status (c : ControlSignal) :
    (s.raise (.execControl c)).status = .failExecControl := rfl
@[simp] theorem State.raise_execControl_faultAddr (c : ControlSignal) :
    (s.raise (.execControl c)).faultAddr = s.faultAddr := rfl
@[simp] theorem State.raise_execControl_failedSignal (c : ControlSignal) :
    (s.raise (.execControl c)).failedSignal = some c := rfl
@[simp] theorem State.raise_addressing_status (a : Word64) : (s.raise (.addressing a)).status = .failAddress := rfl
@[simp] theorem State.raise_addressing_faultAddr (a : Word64) : (s.raise (.addressing a)).faultAddr = a := rfl
@[simp] theorem State.raise_addressing_failedSignal (a : Word64) :
    (s.raise (.addressing a)).failedSignal = s.failedSignal := rfl

/-! ### beginCycle -/

@[simp] theorem State.beginCycle_x : (s.beginCycle).x = s.x := rfl
@[simp] theorem State.beginCycle_sp : (s.beginCycle).sp = s.sp := rfl
@[simp] theorem State.beginCycle_pc : (s.beginCycle).pc = s.pc := rfl
@[simp] theorem State.beginCycle_ir : (s.beginCycle).ir = s.ir := rfl
@[simp] theorem State.beginCycle_status : (s.beginCycle).status = s.status := rfl
@[simp] theorem State.beginCycle_faultAddr : (s.beginCycle).faultAddr = s.faultAddr := rfl
@[simp] theorem State.beginCycle_failedSignal : (s.beginCycle).failedSignal = s.failedSignal := rfl
@[simp] theorem State.beginCycle_mem : (s.beginCycle).mem = s.mem := rfl
@[simp] theorem State.beginCycle_memSize : (s.beginCycle).memSize = s.memSize := rfl
@[simp] theorem State.beginCycle_finishedIn : (s.beginCycle).finishedIn = s.finishedIn := rfl
@[simp] theorem State.beginCycle_stopPc : (s.beginCycle).stopPc = s.stopPc := rfl
@[simp] theorem State.beginCycle_cyc : s.beginCycle.cyc = .fresh := rfl

/-! ### enterStage -/

@[simp] theorem State.enterStage_x (d : DriverState) : (s.enterStage d).x = s.x := rfl
@[simp] theorem State.enterStage_sp (d : DriverState) : (s.enterStage d).sp = s.sp := rfl
@[simp] theorem State.enterStage_pc (d : DriverState) : (s.enterStage d).pc = s.pc := rfl
@[simp] theorem State.enterStage_ir (d : DriverState) : (s.enterStage d).ir = s.ir := rfl
@[simp] theorem State.enterStage_status (d : DriverState) : (s.enterStage d).status = s.status := rfl
@[simp] theorem State.enterStage_faultAddr (d : DriverState) : (s.enterStage d).faultAddr = s.faultAddr := rfl
@[simp] theorem State.enterStage_failedSignal (d : DriverState) : (s.enterStage d).failedSignal = s.failedSignal := rfl
@[simp] theorem State.enterStage_mem (d : DriverState) : (s.enterStage d).mem = s.mem := rfl
@[simp] theorem State.enterStage_memSize (d : DriverState) : (s.enterStage d).memSize = s.memSize := rfl
@[simp] theorem State.enterStage_finishedIn (d : DriverState) : (s.enterStage d).finishedIn = s.finishedIn := rfl
@[simp] theorem State.enterStage_stopPc (d : DriverState) : (s.enterStage d).stopPc = s.stopPc := rfl
@[simp] theorem State.enterStage_cyc (d : DriverState) :
    (s.enterStage d).cyc = { s.cyc with driver := d } := rfl

/-! ### loadIR -/

@[simp] theorem State.loadIR_x (w : Word32) : (s.loadIR w).x = s.x := rfl
@[simp] theorem State.loadIR_sp (w : Word32) : (s.loadIR w).sp = s.sp := rfl
@[simp] theorem State.loadIR_pc (w : Word32) : (s.loadIR w).pc = s.pc := rfl
@[simp] theorem State.loadIR_status (w : Word32) : (s.loadIR w).status = s.status := rfl
@[simp] theorem State.loadIR_faultAddr (w : Word32) : (s.loadIR w).faultAddr = s.faultAddr := rfl
@[simp] theorem State.loadIR_failedSignal (w : Word32) : (s.loadIR w).failedSignal = s.failedSignal := rfl
@[simp] theorem State.loadIR_cyc (w : Word32) : (s.loadIR w).cyc = s.cyc := rfl
@[simp] theorem State.loadIR_mem (w : Word32) : (s.loadIR w).mem = s.mem := rfl
@[simp] theorem State.loadIR_memSize (w : Word32) : (s.loadIR w).memSize = s.memSize := rfl
@[simp] theorem State.loadIR_finishedIn (w : Word32) : (s.loadIR w).finishedIn = s.finishedIn := rfl
@[simp] theorem State.loadIR_stopPc (w : Word32) : (s.loadIR w).stopPc = s.stopPc := rfl
@[simp] theorem State.loadIR_ir (w : Word32) : (s.loadIR w).ir = w := rfl

/-! ### latchDecode -/

@[simp] theorem State.latchDecode_x (d : DecoderOutput) : (s.latchDecode d).x = s.x := rfl
@[simp] theorem State.latchDecode_sp (d : DecoderOutput) : (s.latchDecode d).sp = s.sp := rfl
@[simp] theorem State.latchDecode_pc (d : DecoderOutput) : (s.latchDecode d).pc = s.pc := rfl
@[simp] theorem State.latchDecode_ir (d : DecoderOutput) : (s.latchDecode d).ir = s.ir := rfl
@[simp] theorem State.latchDecode_status (d : DecoderOutput) : (s.latchDecode d).status = s.status := rfl
@[simp] theorem State.latchDecode_faultAddr (d : DecoderOutput) : (s.latchDecode d).faultAddr = s.faultAddr := rfl
@[simp] theorem State.latchDecode_failedSignal (d : DecoderOutput) : (s.latchDecode d).failedSignal = s.failedSignal := rfl
@[simp] theorem State.latchDecode_mem (d : DecoderOutput) : (s.latchDecode d).mem = s.mem := rfl
@[simp] theorem State.latchDecode_memSize (d : DecoderOutput) : (s.latchDecode d).memSize = s.memSize := rfl
@[simp] theorem State.latchDecode_finishedIn (d : DecoderOutput) : (s.latchDecode d).finishedIn = s.finishedIn := rfl
@[simp] theorem State.latchDecode_stopPc (d : DecoderOutput) : (s.latchDecode d).stopPc = s.stopPc := rfl
@[simp] theorem State.latchDecode_cyc (d : DecoderOutput) : (s.latchDecode d).cyc =
    ⟨.execute, d.bundle, some d.a, some d.b, some d.dest, none, none⟩ := rfl

/-! ### latchALU -/

@[simp] theorem State.latchALU_x (r : Word64) : (s.latchALU r).x = s.x := rfl
@[simp] theorem State.latchALU_sp (r : Word64) : (s.latchALU r).sp = s.sp := rfl
@[simp] theorem State.latchALU_pc (r : Word64) : (s.latchALU r).pc = s.pc := rfl
@[simp] theorem State.latchALU_ir (r : Word64) : (s.latchALU r).ir = s.ir := rfl
@[simp] theorem State.latchALU_status (r : Word64) : (s.latchALU r).status = s.status := rfl
@[simp] theorem State.latchALU_faultAddr (r : Word64) : (s.latchALU r).faultAddr = s.faultAddr := rfl
@[simp] theorem State.latchALU_failedSignal (r : Word64) : (s.latchALU r).failedSignal = s.failedSignal := rfl
@[simp] theorem State.latchALU_mem (r : Word64) : (s.latchALU r).mem = s.mem := rfl
@[simp] theorem State.latchALU_memSize (r : Word64) : (s.latchALU r).memSize = s.memSize := rfl
@[simp] theorem State.latchALU_finishedIn (r : Word64) : (s.latchALU r).finishedIn = s.finishedIn := rfl
@[simp] theorem State.latchALU_stopPc (r : Word64) : (s.latchALU r).stopPc = s.stopPc := rfl
@[simp] theorem State.latchALU_cyc (r : Word64) : (s.latchALU r).cyc =
    { s.cyc with aluResult := some r, driver := .memoryAccess } := rfl

/-! ### latchMDR -/

@[simp] theorem State.latchMDR_x (v : Word64) : (s.latchMDR v).x = s.x := rfl
@[simp] theorem State.latchMDR_sp (v : Word64) : (s.latchMDR v).sp = s.sp := rfl
@[simp] theorem State.latchMDR_pc (v : Word64) : (s.latchMDR v).pc = s.pc := rfl
@[simp] theorem State.latchMDR_ir (v : Word64) : (s.latchMDR v).ir = s.ir := rfl
@[simp] theorem State.latchMDR_status (v : Word64) : (s.latchMDR v).status = s.status := rfl
@[simp] theorem State.latchMDR_faultAddr (v : Word64) : (s.latchMDR v).faultAddr = s.faultAddr := rfl
@[simp] theorem State.latchMDR_failedSignal (v : Word64) : (s.latchMDR v).failedSignal = s.failedSignal := rfl
@[simp] theorem State.latchMDR_mem (v : Word64) : (s.latchMDR v).mem = s.mem := rfl
@[simp] theorem State.latchMDR_memSize (v : Word64) : (s.latchMDR v).memSize = s.memSize := rfl
@[simp] theorem State.latchMDR_finishedIn (v : Word64) : (s.latchMDR v).finishedIn = s.finishedIn := rfl
@[simp] theorem State.latchMDR_stopPc (v : Word64) : (s.latchMDR v).stopPc = s.stopPc := rfl
@[simp] theorem State.latchMDR_cyc (v : Word64) : (s.latchMDR v).cyc = { s.cyc with mdr := some v } := rfl

/-! ### completeCycle -/

@[simp] theorem State.completeCycle_x : (s.completeCycle).x = s.x := rfl
@[simp] theorem State.completeCycle_sp : (s.completeCycle).sp = s.sp := rfl
@[simp] theorem State.completeCycle_ir : (s.completeCycle).ir = s.ir := rfl
@[simp] theorem State.completeCycle_status : (s.completeCycle).status = s.status := rfl
@[simp] theorem State.completeCycle_faultAddr : (s.completeCycle).faultAddr = s.faultAddr := rfl
@[simp] theorem State.completeCycle_failedSignal : (s.completeCycle).failedSignal = s.failedSignal := rfl
@[simp] theorem State.completeCycle_mem : (s.completeCycle).mem = s.mem := rfl
@[simp] theorem State.completeCycle_memSize : (s.completeCycle).memSize = s.memSize := rfl
@[simp] theorem State.completeCycle_finishedIn : (s.completeCycle).finishedIn = s.finishedIn := rfl
@[simp] theorem State.completeCycle_stopPc : (s.completeCycle).stopPc = s.stopPc := rfl
@[simp] theorem State.completeCycle_pc : s.completeCycle.pc = s.pc + 4#64 := rfl
@[simp] theorem State.completeCycle_cyc : s.completeCycle.cyc = { s.cyc with driver := .fetch } := rfl

/-! ### placeWord -/

@[simp] theorem State.placeWord_x (w : Word32) : (s.placeWord w).x = s.x := rfl
@[simp] theorem State.placeWord_sp (w : Word32) : (s.placeWord w).sp = s.sp := rfl
@[simp] theorem State.placeWord_pc (w : Word32) : (s.placeWord w).pc = s.pc := rfl
@[simp] theorem State.placeWord_ir (w : Word32) : (s.placeWord w).ir = s.ir := rfl
@[simp] theorem State.placeWord_status (w : Word32) : (s.placeWord w).status = s.status := rfl
@[simp] theorem State.placeWord_faultAddr (w : Word32) : (s.placeWord w).faultAddr = s.faultAddr := rfl
@[simp] theorem State.placeWord_failedSignal (w : Word32) : (s.placeWord w).failedSignal = s.failedSignal := rfl
@[simp] theorem State.placeWord_cyc (w : Word32) : (s.placeWord w).cyc = s.cyc := rfl
@[simp] theorem State.placeWord_memSize (w : Word32) : (s.placeWord w).memSize = s.memSize := rfl
@[simp] theorem State.placeWord_finishedIn (w : Word32) : (s.placeWord w).finishedIn = s.finishedIn := rfl
@[simp] theorem State.placeWord_stopPc (w : Word32) : (s.placeWord w).stopPc = s.stopPc := rfl
@[simp] theorem State.placeWord_mem (w : Word32) : (s.placeWord w).mem = s.mem.store s.pc.toNat 4 w := rfl

/-! ### driveFinished -/

@[simp] theorem State.driveFinished_x (level : Bool) : (s.driveFinished level).x = s.x := rfl
@[simp] theorem State.driveFinished_sp (level : Bool) : (s.driveFinished level).sp = s.sp := rfl
@[simp] theorem State.driveFinished_pc (level : Bool) : (s.driveFinished level).pc = s.pc := rfl
@[simp] theorem State.driveFinished_ir (level : Bool) : (s.driveFinished level).ir = s.ir := rfl
@[simp] theorem State.driveFinished_status (level : Bool) : (s.driveFinished level).status = s.status := rfl
@[simp] theorem State.driveFinished_faultAddr (level : Bool) : (s.driveFinished level).faultAddr = s.faultAddr := rfl
@[simp] theorem State.driveFinished_failedSignal (level : Bool) : (s.driveFinished level).failedSignal = s.failedSignal := rfl
@[simp] theorem State.driveFinished_cyc (level : Bool) : (s.driveFinished level).cyc = s.cyc := rfl
@[simp] theorem State.driveFinished_mem (level : Bool) : (s.driveFinished level).mem = s.mem := rfl
@[simp] theorem State.driveFinished_memSize (level : Bool) : (s.driveFinished level).memSize = s.memSize := rfl
@[simp] theorem State.driveFinished_stopPc (level : Bool) : (s.driveFinished level).stopPc = s.stopPc := rfl
@[simp] theorem State.driveFinished_finishedIn (level : Bool) :
    (s.driveFinished level).finishedIn = level := rfl

/-! ### Register reads depend on `x` and SP only -/

theorem read64_congr {s t : State} (hx : t.x = s.x) (hsp : t.sp = s.sp) (r : Reg) : t.read64 r = s.read64 r := by
  cases r with
  | x n => simp [State.read64, State.readDoubleWord, hx]
  | sp => simpa [State.read64] using hsp

theorem read32_congr {s t : State} (hx : t.x = s.x) (hsp : t.sp = s.sp) (r : Reg) : t.read32 r = s.read32 r := by
  simp [State.read32, read64_congr hx hsp r]

theorem readRef_congr {s t : State} (hx : t.x = s.x) (hsp : t.sp = s.sp) (ref : RegRef) :
    t.readRef ref = s.readRef ref := by
  simp [State.readRef, read64_congr hx hsp, read32_congr hx hsp]

@[simp] theorem State.read64_raise (f : Failure) (q : Reg) : (s.raise f).read64 q = s.read64 q := by cases f <;> cases q <;> rfl
@[simp] theorem State.read64_beginCycle (q : Reg) : (s.beginCycle).read64 q = s.read64 q := by cases q <;> rfl
@[simp] theorem State.read64_enterStage (d : DriverState) (q : Reg) : (s.enterStage d).read64 q = s.read64 q := by cases q <;> rfl
@[simp] theorem State.read64_loadIR (w : Word32) (q : Reg) : (s.loadIR w).read64 q = s.read64 q := by cases q <;> rfl
@[simp] theorem State.read64_latchDecode (d : DecoderOutput) (q : Reg) : (s.latchDecode d).read64 q = s.read64 q := by cases q <;> rfl
@[simp] theorem State.read64_latchALU (r : Word64) (q : Reg) : (s.latchALU r).read64 q = s.read64 q := by cases q <;> rfl
@[simp] theorem State.read64_latchMDR (v : Word64) (q : Reg) : (s.latchMDR v).read64 q = s.read64 q := by cases q <;> rfl
@[simp] theorem State.read64_completeCycle (q : Reg) : (s.completeCycle).read64 q = s.read64 q := by cases q <;> rfl
@[simp] theorem State.read64_placeWord (w : Word32) (q : Reg) : (s.placeWord w).read64 q = s.read64 q := by cases q <;> rfl
@[simp] theorem State.read64_driveFinished (level : Bool) (q : Reg) : (s.driveFinished level).read64 q = s.read64 q := by cases q <;> rfl

/-! ### Reads after register writes -/

@[simp] theorem State.read64_write64_same (r : Reg) (v : Word64) : (s.write64 r v).read64 r = v := by
  cases r <;> simp [State.write64, State.writeDoubleWord, State.read64, State.readDoubleWord]

theorem State.read64_write64_other {q r : Reg} (h : q ≠ r) (v : Word64) :
    (s.write64 r v).read64 q = s.read64 q := by
  cases q with
  | x m =>
    cases r with
    | x n =>
      have hne : (n : Nat) ≠ (m : Nat) := fun e => h (congrArg Reg.x (Fin.ext e.symm))
      simp [State.write64, State.writeDoubleWord, State.read64, State.readDoubleWord, hne]
    | sp => rfl
  | sp =>
    cases r with
    | x n => rfl
    | sp => exact absurd rfl h

@[simp] theorem State.read64_write32_same (r : Reg) (v : Word32) : (s.write32 r v).read64 r = v.setWidth 64 := by
  simp [State.write32]

theorem State.read64_write32_other {q r : Reg} (h : q ≠ r) (v : Word32) :
    (s.write32 r v).read64 q = s.read64 q := s.read64_write64_other h _

/-- The value a write through a reference of this width leaves in its register (10_state.md R28). -/
def Width.written : Width → Word64 → Word64
  | .w32, v => (v.setWidth 32).setWidth 64
  | .w64, v => v

@[simp] theorem State.read64_writeRef_same (r : Reg) (w : Width) (v : Word64) :
    (s.writeRef ⟨r, w⟩ v).read64 r = w.written v := by
  cases w <;> simp [State.writeRef, Width.written]

theorem State.read64_writeRef_other {q r : Reg} (h : q ≠ r) (w : Width) (v : Word64) :
    (s.writeRef ⟨r, w⟩ v).read64 q = s.read64 q := by
  cases w with
  | w32 => exact s.read64_write32_other h _
  | w64 => exact s.read64_write64_other h _

/-- A write through a reference depends on `x` and SP only. -/
theorem writeRef_congr {s t : State} (hx : t.x = s.x) (hsp : t.sp = s.sp) (ref : RegRef) (v : Word64) :
    (t.writeRef ref v).x = (s.writeRef ref v).x ∧ (t.writeRef ref v).sp = (s.writeRef ref v).sp := by
  obtain ⟨r, w⟩ := ref
  cases r <;> cases w <;>
    simp [State.writeRef, State.write32, State.write64, State.writeDoubleWord, hx, hsp]

/-! ### Bytes depend on the memory only -/

theorem byteAt_congr {s t : State} (h : t.mem = s.mem) (a : Nat) : t.byteAt a = s.byteAt a := by
  simp [State.byteAt, h]

theorem accessOk_congr {s t : State} (h : t.memSize = s.memSize) (addr : Word64) (n : Nat) :
    t.accessOk addr n = s.accessOk addr n := by
  simp [State.accessOk, h]

end Sys2Proof.Machine
end

