-- ==== Sys2Proof/Laws/Memory.lean ====
section
/-! SUPPORT. What each memory operation does: reading a byte after a write, reading and writing several bytes, the
checked accesses, and that every operation keeps the canonical form and stays inside MEM_SIZE. -/

namespace Sys2Proof.Machine

/-! ### One byte -/

@[simp] theorem Memory.byte_nil (a : Nat) : Memory.byte [] a = 0#8 := rfl

theorem Memory.byte_cons (c : Nat) (d : Byte) (m : Memory) (a : Nat) :
    Memory.byte ((c, d) :: m) a = if a = c then d else Memory.byte m a := rfl

@[simp] theorem Memory.byte_without_same (m : Memory) (a : Nat) : (m.without a).byte a = 0#8 := by
  induction m with
  | nil => rfl
  | cons e m ih =>
    obtain ⟨c, d⟩ := e
    by_cases h : c = a
    · simpa [Memory.without, h] using ih
    · simpa [Memory.without, h, Memory.byte_cons, Ne.symm h] using ih

theorem Memory.byte_without_other {m : Memory} {a c : Nat} (h : c ≠ a) : (m.without a).byte c = m.byte c := by
  induction m with
  | nil => rfl
  | cons e m ih =>
    obtain ⟨k, d⟩ := e
    by_cases hk : k = a
    · have hck : c ≠ k := fun e => h (e.trans hk)
      simpa [Memory.without, hk, Memory.byte_cons, hck, h] using ih
    · have ih' : Memory.byte (List.filter (fun c => c.1 != a) m) c = Memory.byte m c := ih
      simp [Memory.without, hk, Memory.byte_cons, ih']

theorem Memory.byte_enter (m : Memory) (a : Nat) (b : Byte) (c : Nat) (h : m.byte a = 0#8 ∨ c ≠ a)
    (hm : ∀ e ∈ m, e.1 ≠ a) : (m.enter a b).byte c = if c = a then b else m.byte c := by
  induction m with
  | nil => rfl
  | cons e m ih =>
    obtain ⟨k, d⟩ := e
    have hka : k ≠ a := hm (k, d) (by simp)
    have hm' : ∀ e ∈ m, e.1 ≠ a := fun e he => hm e (by simp [he])
    have h' : Memory.byte m a = 0#8 ∨ c ≠ a := by
      rcases h with h | h
      · left
        simpa [Memory.byte_cons, Ne.symm hka] using h
      · exact Or.inr h
    by_cases hlt : a < k
    · simp [Memory.enter, hlt, Memory.byte_cons]
    · simp only [Memory.enter, hlt, if_false, Memory.byte_cons, ih h' hm']
      by_cases hck : c = k
      · simp [hck, hka]
      · simp [hck]

theorem Memory.without_no_entry (m : Memory) (a : Nat) : ∀ e ∈ m.without a, e.1 ≠ a := by
  intro e he
  simpa using (List.mem_filter.mp he).2

/-- A byte read after one byte is written. -/
theorem Memory.byte_setByte (m : Memory) (a : Nat) (b : Byte) (c : Nat) :
    (m.setByte a b).byte c = if c = a then b else m.byte c := by
  by_cases hb : b = 0#8
  · by_cases hc : c = a
    · simp [Memory.setByte, hb, hc]
    · simp [Memory.setByte, hb, hc, Memory.byte_without_other hc]
  · simp only [Memory.setByte, hb, if_false]
    rw [Memory.byte_enter _ _ _ _ (Or.inl (Memory.byte_without_same m a)) (Memory.without_no_entry m a)]
    by_cases hc : c = a
    · simp [hc]
    · simp [hc, Memory.byte_without_other hc]

@[simp] theorem Memory.byte_setByte_same (m : Memory) (a : Nat) (b : Byte) : (m.setByte a b).byte a = b := by
  simp [Memory.byte_setByte]

theorem Memory.byte_setByte_other {m : Memory} {a c : Nat} (h : c ≠ a) (b : Byte) :
    (m.setByte a b).byte c = m.byte c := by
  simp [Memory.byte_setByte, h]

/-! ### Several bytes (20_memory.md R52, R56, R57) -/

/-- A store leaves every byte outside its range. -/
theorem Memory.byte_store_outside (n : Nat) :
    ∀ (m : Memory) (a : Nat) (v : BitVec (8 * n)) (c : Nat), ¬ (a ≤ c ∧ c < a + n) →
      (m.store a n v).byte c = m.byte c := by
  induction n with
  | zero => intro m a v c _; rfl
  | succ n ih =>
    intro m a v c h
    have hca : c ≠ a := by omega
    rw [Memory.store, ih _ _ _ _ (by omega), Memory.byte_setByte_other hca]

/-- A store puts bits `[8k+7:8k]` of its value at the `k`-th byte. -/
theorem Memory.byte_store_inside (n : Nat) :
    ∀ (m : Memory) (a : Nat) (v : BitVec (8 * n)) (k : Nat), k < n →
      (m.store a n v).byte (a + k) = v.extractLsb' (8 * k) 8 := by
  induction n with
  | zero => intro m a v k h; omega
  | succ n ih =>
    intro m a v k h
    rw [Memory.store]
    cases k with
    | zero =>
      rw [show a + 0 = a from rfl, Memory.byte_store_outside n _ _ _ _ (by omega), Memory.byte_setByte_same]
    | succ k =>
      have e : a + (k + 1) = (a + 1) + k := by omega
      rw [e, ih _ _ _ _ (by omega)]
      ext j hj
      have hlt : 8 * k + j < 8 * n := by omega
      simp only [BitVec.getElem_extractLsb', BitVec.getLsbD_extractLsb']
      simp only [hlt, decide_true, Bool.true_and]
      congr 1
      omega

/-- A load depends on the bytes of its range only. -/
theorem Memory.load_congr (n : Nat) :
    ∀ (m m' : Memory) (a : Nat), (∀ k, k < n → m.byte (a + k) = m'.byte (a + k)) → m.load a n = m'.load a n := by
  induction n with
  | zero => intro m m' a _; rfl
  | succ n ih =>
    intro m m' a h
    have h0 : m.byte a = m'.byte a := h 0 (by omega)
    have h1 : m.load (a + 1) n = m'.load (a + 1) n := by
      refine ih m m' (a + 1) fun k hk => ?_
      have := h (k + 1) (by omega)
      have e : a + (k + 1) = a + 1 + k := by omega
      rwa [e] at this
    simp only [Memory.load, h0, h1]

/-- A load right after a store to the same range gives the value stored. -/
theorem Memory.load_store_same (n : Nat) :
    ∀ (m : Memory) (a : Nat) (v : BitVec (8 * n)), (m.store a n v).load a n = v := by
  induction n with
  | zero => intro m a v; exact (BitVec.of_length_zero (x := v)).symm ▸ rfl
  | succ n ih =>
    intro m a v
    simp only [Memory.load, Memory.store]
    rw [ih, Memory.byte_store_outside n _ _ _ _ (by omega), Memory.byte_setByte_same]
    ext j hj
    rw [BitVec.getElem_append]
    by_cases h8 : j < 8
    · simp [h8, BitVec.getLsbD_eq_getElem hj]
    · have e : 8 + (j - 8) = j := by omega
      simp [h8, e, BitVec.getLsbD_eq_getElem hj]

/-! ### The canonical form is kept -/

theorem Memory.risesFrom_mono {m : Memory} {lo lo' : Nat} (h : lo' ≤ lo) (hm : m.risesFrom lo = true) :
    m.risesFrom lo' = true := by
  cases m with
  | nil => rfl
  | cons e m =>
    obtain ⟨a, b⟩ := e
    simp only [Memory.risesFrom, Bool.and_eq_true, decide_eq_true_eq] at hm ⊢
    exact ⟨⟨by omega, hm.1.2⟩, hm.2⟩

theorem Memory.risesFrom_without {m : Memory} (a : Nat) :
    ∀ {lo : Nat}, m.risesFrom lo = true → (m.without a).risesFrom lo = true := by
  induction m with
  | nil => intro lo h; exact h
  | cons e m ih =>
    obtain ⟨c, d⟩ := e
    intro lo h
    simp only [Memory.risesFrom, Bool.and_eq_true, decide_eq_true_eq] at h
    have hm := ih h.2
    by_cases hc : c = a
    · have : Memory.without ((c, d) :: m) a = Memory.without m a := by simp [Memory.without, hc]
      rw [this]
      exact Memory.risesFrom_mono (by omega) hm
    · have : Memory.without ((c, d) :: m) a = (c, d) :: Memory.without m a := by simp [Memory.without, hc]
      rw [this]
      simp only [Memory.risesFrom, Bool.and_eq_true, decide_eq_true_eq]
      exact ⟨h.1, hm⟩

theorem Memory.risesFrom_enter {m : Memory} {a : Nat} {b : Byte} (hb : b ≠ 0#8) :
    ∀ {lo : Nat}, lo ≤ a → m.risesFrom lo = true → (∀ e ∈ m, e.1 ≠ a) → (m.enter a b).risesFrom lo = true := by
  induction m with
  | nil => intro lo hlo _ _; simp [Memory.enter, Memory.risesFrom, hlo, hb]
  | cons e m ih =>
    obtain ⟨c, d⟩ := e
    intro lo hlo h hne
    have hca : c ≠ a := hne (c, d) (by simp)
    simp only [Memory.risesFrom, Bool.and_eq_true, decide_eq_true_eq] at h
    by_cases hlt : a < c
    · simp only [Memory.enter, hlt, if_true, Memory.risesFrom, Bool.and_eq_true, decide_eq_true_eq]
      exact ⟨⟨hlo, by simpa using hb⟩, ⟨by omega, h.1.2⟩, h.2⟩
    · simp only [Memory.enter, hlt, if_false, Memory.risesFrom, Bool.and_eq_true, decide_eq_true_eq]
      exact ⟨h.1, ih (by omega) h.2 fun e he => hne e (by simp [he])⟩

/-- Writing one byte keeps the canonical form. -/
theorem Memory.wf_setByte {m : Memory} (a : Nat) (b : Byte) (h : m.wf = true) : (m.setByte a b).wf = true := by
  by_cases hb : b = 0#8
  · simpa [Memory.setByte, hb, Memory.wf] using Memory.risesFrom_without a h
  · simp only [Memory.setByte, hb, if_false]
    exact Memory.risesFrom_enter hb (Nat.zero_le a) (Memory.risesFrom_without a h) (Memory.without_no_entry m a)

/-- Storing several bytes keeps the canonical form. -/
theorem Memory.wf_store (n : Nat) :
    ∀ (m : Memory) (a : Nat) (v : BitVec (8 * n)), m.wf = true → (m.store a n v).wf = true := by
  induction n with
  | zero => intro m a v h; exact h
  | succ n ih => intro m a v h; exact ih _ _ _ (Memory.wf_setByte a _ h)

/-- Loading an image keeps the canonical form. -/
theorem Memory.wf_fill (bs : List Byte) :
    ∀ (m : Memory) (a : Nat), m.wf = true → (m.fill a bs).wf = true := by
  induction bs with
  | nil => intro m a h; exact h
  | cons b bs ih => intro m a h; exact ih _ _ (Memory.wf_setByte a b h)

/-! ### No address outside MEM_SIZE is listed -/

theorem Memory.below_enter {m : Memory} {a n : Nat} {b : Byte} (ha : a < n) (h : m.below n = true) :
    (m.enter a b).below n = true := by
  induction m with
  | nil => simp [Memory.enter, Memory.below, ha]
  | cons e m ih =>
    obtain ⟨c, d⟩ := e
    simp only [Memory.below, List.all_cons, Bool.and_eq_true, decide_eq_true_eq] at h
    have ih' := ih h.2
    simp only [Memory.below] at ih'
    by_cases hlt : a < c
    · simp [Memory.enter, hlt, Memory.below, ha, h.1]
      simpa using h.2
    · simp only [Memory.enter, hlt, if_false, Memory.below, List.all_cons, Bool.and_eq_true, decide_eq_true_eq]
      exact ⟨h.1, ih'⟩

theorem Memory.below_setByte {m : Memory} {a n : Nat} (b : Byte) (ha : a < n) (h : m.below n = true) :
    (m.setByte a b).below n = true := by
  have hw : (m.without a).below n = true := by
    simp only [Memory.below, Memory.without, List.all_filter, List.all_eq_true] at h ⊢
    intro e he
    simp [h e he]
  by_cases hb : b = 0#8
  · simpa [Memory.setByte, hb] using hw
  · simpa [Memory.setByte, hb] using Memory.below_enter ha hw

theorem Memory.below_store {size : Nat} (n : Nat) :
    ∀ (m : Memory) (a : Nat) (v : BitVec (8 * n)), a + n ≤ size → m.below size = true →
      (m.store a n v).below size = true := by
  induction n with
  | zero => intro m a v _ h; exact h
  | succ n ih =>
    intro m a v ha h
    exact ih _ _ _ (by omega) (Memory.below_setByte _ (by omega) h)

theorem Memory.below_fill {size : Nat} (bs : List Byte) :
    ∀ (m : Memory) (a : Nat), a + bs.length ≤ size → m.below size = true → (m.fill a bs).below size = true := by
  induction bs with
  | nil => intro m a _ h; exact h
  | cons b bs ih =>
    intro m a ha h
    have ha' : a + (bs.length + 1) ≤ size := by simpa using ha
    exact ih _ _ (by omega) (Memory.below_setByte b (by omega) h)

/-! ### Image bytes -/

/-- A byte read after bytes are written one after another. -/
theorem Memory.byte_fill (bs : List Byte) :
    ∀ (m : Memory) (a c : Nat), (m.fill a bs).byte c =
      if a ≤ c ∧ c < a + bs.length then bs.getD (c - a) 0#8 else m.byte c := by
  induction bs with
  | nil => intro m a c; simp [Memory.fill]
  | cons b bs ih =>
    intro m a c
    rw [Memory.fill, ih]
    by_cases h1 : a + 1 ≤ c ∧ c < a + 1 + bs.length
    · have e : c - a = (c - (a + 1)) + 1 := by omega
      have h2 : a ≤ c ∧ c < a + (b :: bs).length := by simp only [List.length_cons]; omega
      simp only [h1, h2, and_self, if_true, e, List.getD_cons_succ]
    · simp only [h1, if_false, Memory.byte_setByte]
      by_cases hc : c = a
      · simp [hc]
      · have h2 : ¬ (a ≤ c ∧ c < a + (b :: bs).length) := by simp only [List.length_cons]; omega
        rw [if_neg hc, if_neg h2]

/-! ### Checked accesses (20_memory.md R55 to R57) -/

theorem State.accessOk_iff (s : State) (addr : Word64) (n : Nat) :
    s.accessOk addr n = true ↔ addr.toNat % n = 0 ∧ addr.toNat + n ≤ s.memSize := by
  simp [State.accessOk]

theorem State.memRead_ok {s : State} {addr : Word64} {n : Nat} (h : s.accessOk addr n = true) :
    s.memRead addr n = .ok (s.mem.load addr.toNat n) := by simp [State.memRead, h]

theorem State.memRead_fail {s : State} {addr : Word64} {n : Nat} (h : s.accessOk addr n = false) :
    s.memRead addr n = .error (.addressing addr) := by simp [State.memRead, h]

/-- All that a read can answer. -/
theorem State.memRead_cases (s : State) (addr : Word64) (n : Nat) :
    (s.accessOk addr n = true ∧ s.memRead addr n = .ok (s.mem.load addr.toNat n)) ∨
    (s.accessOk addr n = false ∧ s.memRead addr n = .error (.addressing addr)) := by
  cases h : s.accessOk addr n
  · exact .inr ⟨rfl, State.memRead_fail h⟩
  · exact .inl ⟨rfl, State.memRead_ok h⟩

theorem State.memWrite_ok {s : State} {addr : Word64} {n : Nat} (v : BitVec (8 * n))
    (h : s.accessOk addr n = true) :
    s.memWrite addr n v = .ok { s with mem := s.mem.store addr.toNat n v } := by simp [State.memWrite, h]

theorem State.memWrite_fail {s : State} {addr : Word64} {n : Nat} (v : BitVec (8 * n))
    (h : s.accessOk addr n = false) : s.memWrite addr n v = .error (.addressing addr) := by
  simp [State.memWrite, h]

/-- All that a write can answer. -/
theorem State.memWrite_cases (s : State) (addr : Word64) (n : Nat) (v : BitVec (8 * n)) :
    (s.accessOk addr n = true ∧ s.memWrite addr n v = .ok { s with mem := s.mem.store addr.toNat n v }) ∨
    (s.accessOk addr n = false ∧ s.memWrite addr n v = .error (.addressing addr)) := by
  cases h : s.accessOk addr n
  · exact .inr ⟨rfl, State.memWrite_fail v h⟩
  · exact .inl ⟨rfl, State.memWrite_ok v h⟩

end Sys2Proof.Machine
end

