-- ==== Sys2Proof/Laws/Datapath.lean ====
section
/-! SUPPORT. Said once: everything that the shared stages after decode can do (`runStages`), for the four shapes of
bundle the instructions use, and in general. -/

namespace Sys2Proof.Machine

/-! ### Loads as bytes put together -/

theorem load_four (s : State) (a : Nat) : s.mem.load a 4 = s.word32At a := by
  simp only [Memory.load, State.word32At, State.byteAt]
  rw [show (0#0 ++ s.mem.byte (a + 1 + 1 + 1) : BitVec (8 * 0 + 8)) = s.mem.byte (a + 1 + 1 + 1) from
    BitVec.zero_width_append _ _]

theorem bytes_eight (b7 b6 b5 b4 b3 b2 b1 b0 : Byte) :
    (b7 ++ b6 ++ b5 ++ b4 ++ b3 ++ b2 ++ b1 ++ b0 : BitVec (8 + 8 + 8 + 8 + 8 + 8 + 8 + 8)) =
      ((b7 ++ b6 ++ b5 ++ b4) ++ (b3 ++ b2 ++ b1 ++ b0) : BitVec (8 + 8 + 8 + 8 + (8 + 8 + 8 + 8))) := by
  apply BitVec.eq_of_getLsbD_eq
  intro j hj
  simp only [BitVec.getLsbD_append]
  split_ifs <;> first | rfl | omega

theorem load_eight (s : State) (a : Nat) : s.mem.load a 8 = s.word64At a := by
  simp only [Memory.load, State.word64At, State.word32At, State.byteAt]
  rw [show (0#0 ++ s.mem.byte (a + 1 + 1 + 1 + 1 + 1 + 1 + 1) : BitVec (8 * 0 + 8)) =
    s.mem.byte (a + 1 + 1 + 1 + 1 + 1 + 1 + 1) from BitVec.zero_width_append _ _]
  exact bytes_eight _ _ _ _ _ _ _ _

/-! ### The stages one by one -/

theorem executeStage_int {op : ALUOp} {mo : MemOp} {wb : WriteBackOp} {m : Bool} (a b : Word64) :
    executeStage ⟨op, mo, wb, m, false⟩ a b = alu op a b := rfl

/-- All that the memory stage can answer. -/
theorem memoryStage_cases (op : MemOp) (addr : Word64) (dest : RegRef) (s : State) :
    memoryStage op addr dest s = .ok s ∨
    (∃ v, memoryStage op addr dest s = .ok (s.latchMDR v)) ∨
    (∃ (n : Nat) (v : BitVec (8 * n)), s.accessOk addr n = true ∧
      memoryStage op addr dest s = .ok { s with mem := s.mem.store addr.toNat n v }) ∨
    memoryStage op addr dest s = .error (.addressing addr) := by
  cases op with
  | none => exact .inl rfl
  | read32 =>
    obtain ⟨_, h⟩ | ⟨_, h⟩ := s.memRead_cases addr 4
    · exact .inr (.inl ⟨_, by simp only [memoryStage, h]; rfl⟩)
    · exact .inr (.inr (.inr (by simp only [memoryStage, h])))
  | read64 =>
    obtain ⟨_, h⟩ | ⟨_, h⟩ := s.memRead_cases addr 8
    · exact .inr (.inl ⟨_, by simp only [memoryStage, h]; rfl⟩)
    · exact .inr (.inr (.inr (by simp only [memoryStage, h])))
  | write32 =>
    obtain ⟨hok, h⟩ | ⟨_, h⟩ := s.memWrite_cases addr 4 ((s.readRef dest).setWidth 32)
    · exact .inr (.inr (.inl ⟨4, _, hok, h⟩))
    · exact .inr (.inr (.inr h))
  | write64 =>
    obtain ⟨hok, h⟩ | ⟨_, h⟩ := s.memWrite_cases addr 8 (s.readRef dest)
    · exact .inr (.inr (.inl ⟨8, _, hok, h⟩))
    · exact .inr (.inr (.inr h))

/-- All that the shared stages can answer: a failure of Execute, a failure of Memory-Access, or a completed cycle. -/
theorem runStages_cases (d : DecoderOutput) (s : State) :
    (∃ c, runStages d s = .next ((s.latchDecode d).raise (.execControl c))) ∨
    (∃ r, runStages d s = .next (((s.latchDecode d).latchALU r).raise (.addressing r))) ∨
    (∃ r s', memoryStage d.bundle.memOp r d.dest ((s.latchDecode d).latchALU r) = .ok s' ∧
      runStages d s = .next (writeBackStage d.bundle r d.dest (s'.enterStage .writeBack)).completeCycle) := by
  have hex : (∃ c, executeStage d.bundle d.a d.b = .error (.execControl c)) ∨
      ∃ r, executeStage d.bundle d.a d.b = .ok r := by
    cases hfp : d.bundle.floatingPointOperation
    · cases hop : d.bundle.aluOp <;> simp [executeStage, alu, hfp, hop]
    · simp [executeStage, hfp]
  rcases hex with ⟨c, hc⟩ | ⟨r, hr⟩
  · exact .inl ⟨c, by simp only [runStages, hc]⟩
  · right
    rcases memoryStage_cases d.bundle.memOp r d.dest ((s.latchDecode d).latchALU r) with h | ⟨v, h⟩ | ⟨n, v, _, h⟩ | h
    · exact .inr ⟨r, _, h, by simp only [runStages, hr, h]⟩
    · exact .inr ⟨r, _, h, by simp only [runStages, hr, h]⟩
    · exact .inr ⟨r, _, h, by simp only [runStages, hr, h]⟩
    · exact .inl ⟨r, by simp only [runStages, hr, h]⟩

/-! ### What the stages give for each shape of bundle -/

/-- A cycle without memory access that writes the ALU result. -/
theorem runStages_alu {op : ALUOp} {a b r : Word64} (h : alu op a b = .ok r) (rd : Reg) (w : Width) (s : State) :
    ∃ t, runStages ⟨⟨op, .none, .registerWrite, false, false⟩, a, b, ⟨rd, w⟩⟩ s = .next t ∧
      t.read64 rd = w.written r ∧ RegsSameBut rd s t ∧ t.pc = s.pc + 4#64 ∧ t.mem = s.mem ∧
      HostSame s t ∧ ReportSame s t ∧
      t.cyc = ⟨.fetch, ⟨op, .none, .registerWrite, false, false⟩, some a, some b, some ⟨rd, w⟩, some r, none⟩ := by
  refine ⟨_, by simp only [runStages, executeStage_int, h, memoryStage]; rfl, ?_⟩
  simp only [writeBackStage, Bool.false_eq_true, if_false]
  refine ⟨by simp, fun q hq => ?_, by simp, by simp, by simp [HostSame], by simp [ReportSame], by simp⟩
  rw [State.read64_completeCycle, State.read64_writeRef_other _ hq]
  simp

/-- A cycle that loads 4 bytes. -/
theorem runStages_load32 {a b : Word64} (rt : Reg) (w : Width) (s : State) (h : s.accessOk (a + b) 4 = true) :
    ∃ t, runStages ⟨⟨.add, .read32, .registerWrite, true, false⟩, a, b, ⟨rt, w⟩⟩ s = .next t ∧
      t.read64 rt = w.written ((s.mem.load (a + b).toNat 4).signExtend 64) ∧
      RegsSameBut rt s t ∧ t.pc = s.pc + 4#64 ∧ t.mem = s.mem ∧ HostSame s t ∧ ReportSame s t ∧
      t.cyc = ⟨.fetch, ⟨.add, .read32, .registerWrite, true, false⟩, some a, some b, some ⟨rt, w⟩, some (a + b),
        some ((s.mem.load (a + b).toNat 4).signExtend 64)⟩ := by
  have hok : ((s.latchDecode ⟨⟨.add, .read32, .registerWrite, true, false⟩, a, b, ⟨rt, w⟩⟩).latchALU
      (a + b)).accessOk (a + b) 4 = true := by rw [← h]; exact accessOk_congr rfl _ _
  refine ⟨_, by simp only [runStages, executeStage_int, alu, memoryStage, State.memRead_ok hok]; rfl, ?_⟩
  simp only [writeBackStage, if_true]
  refine ⟨by simp [State.mdrValue], fun q hq => ?_, by simp, by simp, by simp [HostSame], by simp [ReportSame], by simp⟩
  rw [State.read64_completeCycle, State.read64_writeRef_other _ hq]
  simp

/-- A cycle that loads 8 bytes. -/
theorem runStages_load64 {a b : Word64} (rt : Reg) (w : Width) (s : State) (h : s.accessOk (a + b) 8 = true) :
    ∃ t, runStages ⟨⟨.add, .read64, .registerWrite, true, false⟩, a, b, ⟨rt, w⟩⟩ s = .next t ∧
      t.read64 rt = w.written (s.mem.load (a + b).toNat 8) ∧
      RegsSameBut rt s t ∧ t.pc = s.pc + 4#64 ∧ t.mem = s.mem ∧ HostSame s t ∧ ReportSame s t ∧
      t.cyc = ⟨.fetch, ⟨.add, .read64, .registerWrite, true, false⟩, some a, some b, some ⟨rt, w⟩, some (a + b),
        some (s.mem.load (a + b).toNat 8)⟩ := by
  have hok : ((s.latchDecode ⟨⟨.add, .read64, .registerWrite, true, false⟩, a, b, ⟨rt, w⟩⟩).latchALU
      (a + b)).accessOk (a + b) 8 = true := by rw [← h]; exact accessOk_congr rfl _ _
  refine ⟨_, by simp only [runStages, executeStage_int, alu, memoryStage, State.memRead_ok hok]; rfl, ?_⟩
  simp only [writeBackStage, if_true]
  refine ⟨by simp [State.mdrValue], fun q hq => ?_, by simp, by simp, by simp [HostSame], by simp [ReportSame], by simp⟩
  rw [State.read64_completeCycle, State.read64_writeRef_other _ hq]
  simp

/-- A cycle that stores the low 32 bits of its register. -/
theorem runStages_store32 {a b : Word64} (rt : Reg) (s : State) (h : s.accessOk (a + b) 4 = true) :
    ∃ t, runStages ⟨⟨.add, .write32, .none, false, false⟩, a, b, ⟨rt, .w32⟩⟩ s = .next t ∧
      t.mem = s.mem.store (a + b).toNat 4 (s.read32 rt) ∧ RegsSame s t ∧ t.pc = s.pc + 4#64 ∧
      HostSame s t ∧ ReportSame s t ∧
      t.cyc = ⟨.fetch, ⟨.add, .write32, .none, false, false⟩, some a, some b, some ⟨rt, .w32⟩, some (a + b), none⟩ := by
  have hok : ((s.latchDecode ⟨⟨.add, .write32, .none, false, false⟩, a, b, ⟨rt, .w32⟩⟩).latchALU
      (a + b)).accessOk (a + b) 4 = true := by rw [← h]; exact accessOk_congr rfl _ _
  refine ⟨_, by simp only [runStages, executeStage_int, alu, memoryStage, State.memWrite_ok _ hok]; rfl, ?_⟩
  simp only [writeBackStage]
  refine ⟨?_, fun q => ?_, by simp, by simp [HostSame], by simp [ReportSame], by simp⟩
  · simp only [State.completeCycle_mem, State.enterStage_mem, State.latchALU_mem, State.latchDecode_mem,
      State.readRef, State.read32, State.read64_latchALU, State.read64_latchDecode]
    congr 1
    simp
  · rw [State.read64_completeCycle, State.read64_enterStage]
    exact read64_congr rfl rfl q

/-- A cycle that stores its whole register. -/
theorem runStages_store64 {a b : Word64} (rt : Reg) (s : State) (h : s.accessOk (a + b) 8 = true) :
    ∃ t, runStages ⟨⟨.add, .write64, .none, false, false⟩, a, b, ⟨rt, .w64⟩⟩ s = .next t ∧
      t.mem = s.mem.store (a + b).toNat 8 (s.read64 rt) ∧ RegsSame s t ∧ t.pc = s.pc + 4#64 ∧
      HostSame s t ∧ ReportSame s t ∧
      t.cyc = ⟨.fetch, ⟨.add, .write64, .none, false, false⟩, some a, some b, some ⟨rt, .w64⟩, some (a + b), none⟩ := by
  have hok : ((s.latchDecode ⟨⟨.add, .write64, .none, false, false⟩, a, b, ⟨rt, .w64⟩⟩).latchALU
      (a + b)).accessOk (a + b) 8 = true := by rw [← h]; exact accessOk_congr rfl _ _
  refine ⟨_, by simp only [runStages, executeStage_int, alu, memoryStage, State.memWrite_ok _ hok]; rfl, ?_⟩
  simp only [writeBackStage]
  refine ⟨by simp [State.readRef], fun q => ?_, by simp, by simp [HostSame], by simp [ReportSame], by simp⟩
  rw [State.read64_completeCycle, State.read64_enterStage]
  exact read64_congr rfl rfl q

/-- A cycle whose data access fails its check: the width is the one `MemOp` asks for. -/
theorem runStages_addressing {d : DecoderOutput} {s : State} {n : Nat}
    (hb : d.bundle.floatingPointOperation = false) (hop : d.bundle.aluOp = .add)
    (hn : (n = 4 ∧ (d.bundle.memOp = .read32 ∨ d.bundle.memOp = .write32)) ∨
      (n = 8 ∧ (d.bundle.memOp = .read64 ∨ d.bundle.memOp = .write64)))
    (h : s.accessOk (d.a + d.b) n = false) :
    runStages d s = .next (((s.latchDecode d).latchALU (d.a + d.b)).raise (.addressing (d.a + d.b))) := by
  have hex : executeStage d.bundle d.a d.b = .ok (d.a + d.b) := by simp [executeStage, hb, alu, hop]
  have hno : ((s.latchDecode d).latchALU (d.a + d.b)).accessOk (d.a + d.b) n = false := by
    rw [← h]; exact accessOk_congr rfl _ _
  rcases hn with ⟨rfl, hm | hm⟩ | ⟨rfl, hm | hm⟩
  · simp only [runStages, hex, hm, memoryStage, State.memRead_fail hno]
  · simp only [runStages, hex, hm, memoryStage, State.memWrite_fail _ hno]
  · simp only [runStages, hex, hm, memoryStage, State.memRead_fail hno]
  · simp only [runStages, hex, hm, memoryStage, State.memWrite_fail _ hno]

/-! ### The cycle driver -/

/-- All that a step can be: a halted block, a run ended by `finished`, a failed fetch, a failed decode, or the
decoded instruction's meaning. -/
theorem step_cases (s : State) :
    (s.status ≠ .running ∧ step s = .next s) ∨
    (s.status = .running ∧ s.finishedSampled = true ∧ step s = .next { s with status := .finished }) ∨
    (s.cycleStarts ∧ s.accessOk s.pc 4 = false ∧ step s = .next (s.beginCycle.raise (.addressing s.pc))) ∨
    (s.cycleStarts ∧ s.accessOk s.pc 4 = true ∧ ∃ e, decodeWord (s.mem.load s.pc.toNat 4) = .error e ∧
      step s = .next (((s.beginCycle.loadIR (s.mem.load s.pc.toNat 4)).enterStage .decode).raise
        (.decode (s.mem.load s.pc.toNat 4)))) ∨
    (s.cycleStarts ∧ s.accessOk s.pc 4 = true ∧ ∃ i, decodeWord (s.mem.load s.pc.toNat 4) = .ok i ∧
      step s = exec i ((s.beginCycle.loadIR (s.mem.load s.pc.toNat 4)).enterStage .decode)) := by
  by_cases hr : s.status = .running
  · cases hf : s.finishedSampled
    · obtain ⟨hok, hm⟩ | ⟨hno, hm⟩ := s.memRead_cases s.pc 4
      · cases hd : decodeWord (s.mem.load s.pc.toNat 4) with
        | error e =>
          exact .inr (.inr (.inr (.inl ⟨⟨hr, hf⟩, hok, e, rfl, by simp [step, driveCycle, fetchWord, hr, hf, hm, hd]⟩)))
        | ok i =>
          exact .inr (.inr (.inr (.inr ⟨⟨hr, hf⟩, hok, i, rfl, by simp [step, driveCycle, fetchWord, hr, hf, hm, hd]⟩)))
      · exact .inr (.inr (.inl ⟨⟨hr, hf⟩, hno, by simp [step, driveCycle, fetchWord, hr, hf, hm]⟩))
    · exact .inr (.inl ⟨hr, rfl, by simp [step, driveCycle, hr, hf]⟩)
  · exact .inl ⟨hr, by simp [step, driveCycle, hr]⟩

end Sys2Proof.Machine
end

