-- ==== Sys2Proof/Laws/Decode.lean ====
section
/-! SUPPORT. What the decoder's parts say: a masked compare is a compare of the fixed fields, a word is its fields put
together, field 31 is SP, and all that a sub-decoder can answer. -/

namespace Sys2Proof

/-! ### Register fields -/

@[simp] theorem resolve_regField (r : Reg) : resolve (regField r) = r := by
  cases r with
  | x i => revert i; decide
  | sp => decide

@[simp] theorem regField_resolve (f : BitVec 5) : regField (resolve f) = f := by revert f; decide

/-! ### Fields of words put together -/

theorem extract_high {v w : Nat} {hi : BitVec v} {lo : BitVec w} {start len : Nat} (h : w ≤ start) :
    (hi ++ lo).extractLsb' start len = hi.extractLsb' (start - w) len := BitVec.extractLsb'_append_eq_of_le h

theorem extract_low {v w : Nat} {hi : BitVec v} {lo : BitVec w} {start len : Nat} (h : start + len ≤ w) :
    (hi ++ lo).extractLsb' start len = lo.extractLsb' start len := BitVec.extractLsb'_append_eq_of_add_le h

theorem append_inj {v w : Nat} {a c : BitVec v} {b d : BitVec w} : a ++ b = c ++ d ↔ a = c ∧ b = d := by
  constructor
  · intro h
    have h1 := congrArg (BitVec.extractLsb' w v) h
    have h2 := congrArg (BitVec.extractLsb' 0 w) h
    simp only [BitVec.extractLsb'_append_eq_left, BitVec.extractLsb'_append_eq_right] at h1 h2
    exact ⟨h1, h2⟩
  · rintro ⟨rfl, rfl⟩; rfl

/-- A word split at bit `k`. -/
theorem word_split (k n : Nat) (w : BitVec (n + k)) : w = w.extractLsb' k n ++ w.extractLsb' 0 k :=
  (BitVec.extractLsb'_append_extractLsb').symm

/-! ### Masks (30_encoding.md R91) -/

/-- The mask of the rows whose fixed bits are 31..22. -/
theorem mask_top10 (w : Word32) (c : BitVec 10) :
    w &&& 0xFFC00000#32 = (c ++ 0#22 : BitVec (10 + 22)) ↔ w.extractLsb' 22 10 = c := by
  have hm : (0xFFC00000#32 : Word32) = (BitVec.allOnes 10 ++ 0#22 : BitVec (10 + 22)) := by decide
  have hw : w = (w.extractLsb' 22 10 ++ w.extractLsb' 0 22 : BitVec (10 + 22)) := word_split 22 10 w
  generalize w.extractLsb' 22 10 = a at *
  generalize w.extractLsb' 0 22 = b at *
  subst hw
  rw [hm, BitVec.and_append, append_inj]
  simp only [BitVec.and_allOnes, BitVec.and_zero, and_true]

/-- The mask of ADD (shifted register): fixed bits 31..24 and 21. -/
theorem mask_addSreg (w : Word32) (c : BitVec 8) (e : BitVec 1) :
    w &&& 0xFF200000#32 = (c ++ 0#2 ++ e ++ 0#21 : BitVec (8 + 2 + 1 + 21)) ↔
      w.extractLsb' 24 8 = c ∧ w.extractLsb' 21 1 = e := by
  have hm : (0xFF200000#32 : Word32) =
      (BitVec.allOnes 8 ++ 0#2 ++ BitVec.allOnes 1 ++ 0#21 : BitVec (8 + 2 + 1 + 21)) := by decide
  have hw : w = (w.extractLsb' 24 8 ++ w.extractLsb' 22 2 ++ w.extractLsb' 21 1 ++ w.extractLsb' 0 21 :
      BitVec (8 + 2 + 1 + 21)) := by
    rw [BitVec.extractLsb'_append_extractLsb'_eq_extractLsb' (start₂ := 24) (start₁ := 22) rfl,
      BitVec.extractLsb'_append_extractLsb'_eq_extractLsb' (start₂ := 22) (start₁ := 21) rfl,
      BitVec.extractLsb'_append_extractLsb'_eq_extractLsb' (start₂ := 21) (start₁ := 0) rfl,
      BitVec.extractLsb'_eq_self]
  generalize w.extractLsb' 24 8 = a at *
  generalize w.extractLsb' 22 2 = b at *
  generalize w.extractLsb' 21 1 = d at *
  generalize w.extractLsb' 0 21 = f at *
  subst hw
  rw [hm, BitVec.and_append, BitVec.and_append, BitVec.and_append, append_inj, append_inj, append_inj]
  simp only [BitVec.and_allOnes, BitVec.and_zero, and_true]

/-- The mask of LDR (register offset): fixed bits 31..21 and 11..10. -/
theorem mask_regOff (w : Word32) (c : BitVec 11) (e : BitVec 2) :
    w &&& 0xFFE00C00#32 = (c ++ 0#9 ++ e ++ 0#10 : BitVec (11 + 9 + 2 + 10)) ↔
      w.extractLsb' 21 11 = c ∧ w.extractLsb' 10 2 = e := by
  have hm : (0xFFE00C00#32 : Word32) =
      (BitVec.allOnes 11 ++ 0#9 ++ BitVec.allOnes 2 ++ 0#10 : BitVec (11 + 9 + 2 + 10)) := by decide
  have hw : w = (w.extractLsb' 21 11 ++ w.extractLsb' 12 9 ++ w.extractLsb' 10 2 ++ w.extractLsb' 0 10 :
      BitVec (11 + 9 + 2 + 10)) := by
    rw [BitVec.extractLsb'_append_extractLsb'_eq_extractLsb' (start₂ := 21) (start₁ := 12) rfl,
      BitVec.extractLsb'_append_extractLsb'_eq_extractLsb' (start₂ := 12) (start₁ := 10) rfl,
      BitVec.extractLsb'_append_extractLsb'_eq_extractLsb' (start₂ := 10) (start₁ := 0) rfl,
      BitVec.extractLsb'_eq_self]
  generalize w.extractLsb' 21 11 = a at *
  generalize w.extractLsb' 12 9 = b at *
  generalize w.extractLsb' 10 2 = d at *
  generalize w.extractLsb' 0 10 = f at *
  subst hw
  rw [hm, BitVec.and_append, BitVec.and_append, BitVec.and_append, append_inj, append_inj, append_inj]
  simp only [BitVec.and_allOnes, BitVec.and_zero, and_true]

/-- Each row's compare, as a compare of fixed fields. -/
theorem hits_fields (w : Word32) :
    (rowSubImmX.hits w = true ↔ w.extractLsb' 22 10 = 0b1101000100#10) ∧
    (rowAddSregW.hits w = true ↔ w.extractLsb' 24 8 = 0b00001011#8 ∧ w.extractLsb' 21 1 = 0#1) ∧
    (rowLdrUimmW.hits w = true ↔ w.extractLsb' 22 10 = 0b1011100101#10) ∧
    (rowLdrUimmX.hits w = true ↔ w.extractLsb' 22 10 = 0b1111100101#10) ∧
    (rowLdrswUimm.hits w = true ↔ w.extractLsb' 22 10 = 0b1011100110#10) ∧
    (rowStrUimmW.hits w = true ↔ w.extractLsb' 22 10 = 0b1011100100#10) ∧
    (rowStrUimmX.hits w = true ↔ w.extractLsb' 22 10 = 0b1111100100#10) ∧
    (rowLdrRegW.hits w = true ↔ w.extractLsb' 21 11 = 0b10111000011#11 ∧ w.extractLsb' 10 2 = 0b10#2) ∧
    (rowLdrRegX.hits w = true ↔ w.extractLsb' 21 11 = 0b11111000011#11 ∧ w.extractLsb' 10 2 = 0b10#2) := by
  refine ⟨?_, ?_, ?_, ?_, ?_, ?_, ?_, ?_, ?_⟩ <;> simp only [Row.hits, beq_iff_eq]
  · exact mask_top10 w 0b1101000100#10
  · exact mask_addSreg w 0b00001011#8 0#1
  · exact mask_top10 w 0b1011100101#10
  · exact mask_top10 w 0b1111100101#10
  · exact mask_top10 w 0b1011100110#10
  · exact mask_top10 w 0b1011100100#10
  · exact mask_top10 w 0b1111100100#10
  · exact mask_regOff w 0b10111000011#11 0b10#2
  · exact mask_regOff w 0b11111000011#11 0b10#2

/-! ### Sub-decoders -/

/-- A word a sub-decoder accepts hits one of its rows, whose constraint holds. -/
theorem subDecode_ok {g : Group} {w : Word32} {rows : List Row} {i : Instr} (h : subDecode g w rows = .ok i) :
    ∃ r ∈ rows, r.hits w = true ∧ r.build w = i ∧ i.wf = true := by
  induction rows with
  | nil => exact nomatch h
  | cons r rows ih =>
    simp only [subDecode] at h
    by_cases hh : r.hits w = true
    · simp only [hh, if_true] at h
      by_cases hw : (r.build w).wf = true
      · simp only [hw, if_true, Except.ok.injEq] at h
        exact ⟨r, by simp, hh, h, h ▸ hw⟩
      · simp [hw] at h
    · simp only [hh] at h
      obtain ⟨r', hr', h'⟩ := ih h
      exact ⟨r', by simp [hr'], h'⟩

/-- The rows before the hit are passed over, and the hit row's constraint decides. -/
theorem subDecode_hit {g : Group} {w : Word32} {pre rows : List Row} {r : Row}
    (hpre : ∀ q ∈ pre, q.hits w = false) (hit : r.hits w = true) :
    subDecode g w (pre ++ r :: rows) =
      if (r.build w).wf then .ok (r.build w) else .error (.reservedField (r.build w)) := by
  induction pre with
  | nil => simp [subDecode, hit]
  | cons q pre ih =>
    have hq : q.hits w = false := hpre q (by simp)
    simp only [List.cons_append, subDecode, hq, Bool.false_eq_true, if_false]
    exact ih fun q' hq' => hpre q' (by simp [hq'])

/-- A word that hits no row is refused. -/
theorem subDecode_miss {g : Group} {w : Word32} {rows : List Row} (h : ∀ q ∈ rows, q.hits w = false) :
    subDecode g w rows = .error (.noMatchingRow g) := by
  induction rows with
  | nil => rfl
  | cons q rows ih =>
    simp only [subDecode, h q (by simp), Bool.false_eq_true, if_false]
    exact ih fun q' hq' => h q' (by simp [hq'])

/-! ### Bytes of a word -/

/-- A word put together from its four bytes. -/
theorem word_of_bytes (w : Word32) :
    (w.extractLsb' 24 8 ++ w.extractLsb' 16 8 ++ w.extractLsb' 8 8 ++ w.extractLsb' 0 8 : BitVec (8 + 8 + 8 + 8)) = w := by
  apply BitVec.eq_of_getLsbD_eq
  intro j hj
  simp only [BitVec.getLsbD_append, BitVec.getLsbD_extractLsb']
  split_ifs <;> (rw [decide_eq_true (by omega), Bool.true_and]; congr 1; omega)

end Sys2Proof
end

