-- ==== Sys2Proof/Laws/Exec.lean ====
section
/-! SUPPORT. Said once: when an operand form gives no value, and what every instruction's meaning hands to the shared
stages. -/

namespace Sys2Proof.Machine

/-- A loaded word, sign-extended into MDR and then truncated to the 32-bit view, is the word. -/
@[simp] theorem setWidth_signExtend_word (v : Word32) : (v.signExtend 64).setWidth 32 = v := by
  apply BitVec.eq_of_getLsbD_eq
  intro j hj
  rw [BitVec.getLsbD_setWidth, BitVec.getLsbD_signExtend]
  simp [hj, show j < 64 by omega]

theorem shiftKind_eq_none : ∀ shift : BitVec 2, shiftKind shift = none ↔ shiftAllowed shift = false := by decide

theorem extendKind_eq_none : ∀ option : BitVec 3, extendKind option = none ↔ optionAllowed option = false := by decide

/-- The shifted operand is missing exactly where the instruction's constraint is false. -/
theorem shiftedOperand_eq_none (shift : BitVec 2) (imm6 : BitVec 6) (v : Word32) :
    shiftedOperand shift imm6 v = none ↔ (shiftAllowed shift && amountAllowed imm6) = false := by
  simp only [shiftedOperand, amountAllowed]
  cases hk : shiftKind shift with
  | none => simp [(shiftKind_eq_none shift).mp hk]
  | some k =>
    have : shiftAllowed shift = true := by
      by_contra hc
      have hn := (shiftKind_eq_none shift).mpr (by simpa using hc)
      rw [hk] at hn
      exact nomatch hn
    simp [this]

/-- The extended offset is missing exactly where the instruction's constraint is false. -/
theorem extendedOffset_eq_none (size : Nat) (option : BitVec 3) (scaled : Bool) (m : Word64) :
    extendedOffset size option scaled m = none ↔ optionAllowed option = false := by
  simp only [extendedOffset]
  cases hk : extendKind option with
  | none => simp [(extendKind_eq_none option).mp hk]
  | some k =>
    have : optionAllowed option = true := by
      by_contra hc
      have hn := (extendKind_eq_none option).mpr (by simpa using hc)
      rw [hk] at hn
      exact nomatch hn
    simp [this]

/-- What a decoder output has to do with its instruction: the ALU is used, a register is written only through the
destination, and memory is accessed only where the instruction says. -/
structure OutputOf (i : Instr) (s : State) (d : DecoderOutput) : Prop where
  integer : d.bundle.floatingPointOperation = false
  usesAlu : d.bundle.aluOp ≠ .none
  writes : ∀ r, destOf i = some r → d.dest.target = r ∧ d.bundle.writeBackOp = .registerWrite
  noWrite : destOf i = none → d.bundle.writeBackOp = .none
  noAccess : dataAccess i s = none → d.bundle.memOp = .none ∧ d.bundle.memToRegister = false
  access : ∀ a n, dataAccess i s = some (a, n) → d.bundle.aluOp = .add ∧ a = d.a + d.b ∧
    ((n = 4 ∧ (d.bundle.memOp = .read32 ∨ d.bundle.memOp = .write32)) ∨
      (n = 8 ∧ (d.bundle.memOp = .read64 ∨ d.bundle.memOp = .write64)))
  noStore : storeRange i s = none → d.bundle.memOp ≠ .write32 ∧ d.bundle.memOp ≠ .write64
  store : ∀ lo n, storeRange i s = some (lo, n) → ∃ a, dataAccess i s = some (a, n) ∧ lo = a.toNat

/-- All that an instruction's meaning can be: a DecodeFailure where its constraint is false, else the shared stages on
an output of the instruction. -/
theorem exec_stages (i : Instr) (s : State) :
    (i.wf = false ∧ exec i s = .next (s.raise (.decode s.ir))) ∨
    (i.wf = true ∧ ∃ d, exec i s = runStages d s ∧ OutputOf i s d) := by
  cases i with
  | subImmX rd rn imm12 =>
    refine .inr ⟨rfl, _, by simp only [exec, execSubImmX]; rfl, ?_⟩
    constructor <;> simp [destOf, dataAccess, storeRange]
  | addSregW rd rn rm shift imm6 =>
    cases ho : shiftedOperand shift imm6 (s.read32 rm) with
    | none => exact .inl ⟨(shiftedOperand_eq_none _ _ _).mp ho, by simp only [exec, execAddSregW, ho]⟩
    | some v =>
      refine .inr ⟨?_, _, by simp only [exec, execAddSregW, ho]; rfl, ?_⟩
      · by_contra hc
        rw [(shiftedOperand_eq_none _ _ _).mpr (by simpa [Instr.wf] using hc)] at ho
        exact nomatch ho
      · constructor <;> simp [destOf, dataAccess, storeRange]
  | ldrUimmW rt rn imm12 =>
    refine .inr ⟨rfl, _, by simp only [exec, execLdrUimmW]; rfl, ?_⟩
    constructor <;> simp [destOf, dataAccess, storeRange]
  | ldrUimmX rt rn imm12 =>
    refine .inr ⟨rfl, _, by simp only [exec, execLdrUimmX]; rfl, ?_⟩
    constructor <;> simp [destOf, dataAccess, storeRange]
  | ldrswUimm rt rn imm12 =>
    refine .inr ⟨rfl, _, by simp only [exec, execLdrswUimm]; rfl, ?_⟩
    constructor <;> simp [destOf, dataAccess, storeRange]
  | strUimmW rt rn imm12 =>
    refine .inr ⟨rfl, _, by simp only [exec, execStrUimmW]; rfl, ?_⟩
    constructor <;> simp [destOf, dataAccess, storeRange]
  | strUimmX rt rn imm12 =>
    refine .inr ⟨rfl, _, by simp only [exec, execStrUimmX]; rfl, ?_⟩
    constructor <;> simp [destOf, dataAccess, storeRange]
  | ldrRegW rt rn rm option scaled =>
    cases ho : extendedOffset 2 option scaled (s.read64 rm) with
    | none => exact .inl ⟨(extendedOffset_eq_none _ _ _ _).mp ho, by simp only [exec, execLdrRegW, ho]⟩
    | some off =>
      refine .inr ⟨?_, _, by simp only [exec, execLdrRegW, ho]; rfl, ?_⟩
      · by_contra hc
        rw [(extendedOffset_eq_none _ _ _ _).mpr (by simpa [Instr.wf] using hc)] at ho
        exact nomatch ho
      · constructor <;> simp [destOf, dataAccess, storeRange, ho]
  | ldrRegX rt rn rm option scaled =>
    cases ho : extendedOffset 3 option scaled (s.read64 rm) with
    | none => exact .inl ⟨(extendedOffset_eq_none _ _ _ _).mp ho, by simp only [exec, execLdrRegX, ho]⟩
    | some off =>
      refine .inr ⟨?_, _, by simp only [exec, execLdrRegX, ho]; rfl, ?_⟩
      · by_contra hc
        rw [(extendedOffset_eq_none _ _ _ _).mpr (by simpa [Instr.wf] using hc)] at ho
        exact nomatch ho
      · constructor <;> simp [destOf, dataAccess, storeRange, ho]

end Sys2Proof.Machine
end

