-- ==== Sys2Proof/Laws/PerInstr.lean ====
section
/-! SUPPORT. Facts about each instruction as syntax, one lemma per constructor: its word lies in its row's group and
carries the row's fixed bits (30_encoding.md R91), and the row reads its own fields back. -/

namespace Sys2Proof

/-- The row of the opcode map an instruction belongs to, with the group whose sub-decoder holds it. -/
def rowOf : Instr → Group × Row
  | .subImmX _ _ _ => (.dpImm, rowSubImmX)
  | .addSregW _ _ _ _ _ => (.dpReg, rowAddSregW)
  | .ldrUimmW _ _ _ => (.loadStore, rowLdrUimmW)
  | .ldrUimmX _ _ _ => (.loadStore, rowLdrUimmX)
  | .ldrswUimm _ _ _ => (.loadStore, rowLdrswUimm)
  | .strUimmW _ _ _ => (.loadStore, rowStrUimmW)
  | .strUimmX _ _ _ => (.loadStore, rowStrUimmX)
  | .ldrRegW _ _ _ _ _ => (.loadStore, rowLdrRegW)
  | .ldrRegX _ _ _ _ _ => (.loadStore, rowLdrRegX)

/-! ### The fields of the three layouts -/

theorem fields_imm (c : BitVec 10) (imm12 : BitVec 12) (n d : BitVec 5) :
    let w : Word32 := (c ++ imm12 ++ n ++ d : BitVec (10 + 12 + 5 + 5))
    w.extractLsb' 22 10 = c ∧ op0Of w = c.extractLsb' 3 4 ∧ fieldImm12 w = imm12 ∧
      fieldRn w = resolve n ∧ fieldRd w = resolve d := by
  refine ⟨?_, ?_, ?_, ?_, ?_⟩
  · rw [extract_high (by omega), extract_high (by omega), extract_high (by omega)]; simp
  · simp only [op0Of]
    rw [extract_high (by omega), extract_high (by omega), extract_high (by omega)]
  · simp only [fieldImm12]
    rw [extract_high (by omega), extract_high (by omega), extract_low (by omega)]; simp
  · simp only [fieldRn]
    rw [extract_high (by omega), extract_low (by omega)]; simp
  · simp only [fieldRd]
    rw [extract_low (by omega)]; simp

theorem fields_addSreg (shift : BitVec 2) (imm6 : BitVec 6) (m n d : BitVec 5) :
    let w : Word32 := (0b00001011#8 ++ shift ++ 0b0#1 ++ m ++ imm6 ++ n ++ d : BitVec (8 + 2 + 1 + 5 + 6 + 5 + 5))
    w.extractLsb' 24 8 = 0b00001011#8 ∧ w.extractLsb' 21 1 = 0#1 ∧ op0Of w = 0b0101#4 ∧
      fieldShift w = shift ∧ fieldImm6 w = imm6 ∧
      fieldRm w = resolve m ∧ fieldRn w = resolve n ∧ fieldRd w = resolve d := by
  refine ⟨?_, ?_, ?_, ?_, ?_, ?_, ?_, ?_⟩
  · rw [extract_high (by omega), extract_high (by omega), extract_high (by omega), extract_high (by omega),
      extract_high (by omega), extract_high (by omega)]; simp
  · rw [extract_high (by omega), extract_high (by omega), extract_high (by omega), extract_high (by omega),
      extract_low (by omega)]; simp
  · simp only [op0Of]
    rw [extract_high (by omega), extract_high (by omega), extract_high (by omega), extract_high (by omega),
      extract_high (by omega), extract_high (by omega)]; decide
  · simp only [fieldShift]
    rw [extract_high (by omega), extract_high (by omega), extract_high (by omega), extract_high (by omega),
      extract_high (by omega), extract_low (by omega)]; simp
  · simp only [fieldImm6]
    rw [extract_high (by omega), extract_high (by omega), extract_low (by omega)]; simp
  · simp only [fieldRm]
    rw [extract_high (by omega), extract_high (by omega), extract_high (by omega), extract_low (by omega)]; simp
  · simp only [fieldRn]
    rw [extract_high (by omega), extract_low (by omega)]; simp
  · simp only [fieldRd]
    rw [extract_low (by omega)]; simp

theorem fields_regOff (c : BitVec 11) (option : BitVec 3) (s : Bool) (m n d : BitVec 5) :
    let w : Word32 :=
      (c ++ m ++ option ++ BitVec.ofBool s ++ 0b10#2 ++ n ++ d : BitVec (11 + 5 + 3 + 1 + 2 + 5 + 5))
    w.extractLsb' 21 11 = c ∧ w.extractLsb' 10 2 = 0b10#2 ∧ op0Of w = c.extractLsb' 4 4 ∧
      fieldOption w = option ∧ fieldS w = s ∧
      fieldRm w = resolve m ∧ fieldRn w = resolve n ∧ fieldRd w = resolve d := by
  refine ⟨?_, ?_, ?_, ?_, ?_, ?_, ?_, ?_⟩
  · rw [extract_high (by omega), extract_high (by omega), extract_high (by omega), extract_high (by omega),
      extract_high (by omega), extract_high (by omega)]; simp
  · rw [extract_high (by omega), extract_high (by omega), extract_low (by omega)]; simp
  · simp only [op0Of]
    rw [extract_high (by omega), extract_high (by omega), extract_high (by omega), extract_high (by omega),
      extract_high (by omega), extract_high (by omega)]
  · simp only [fieldOption]
    rw [extract_high (by omega), extract_high (by omega), extract_high (by omega), extract_high (by omega),
      extract_low (by omega)]; simp
  · simp only [fieldS]
    rw [BitVec.getLsbD_append, BitVec.getLsbD_append, BitVec.getLsbD_append, BitVec.getLsbD_append]
    cases s <;> simp
  · simp only [fieldRm]
    rw [extract_high (by omega), extract_high (by omega), extract_high (by omega), extract_high (by omega),
      extract_high (by omega), extract_low (by omega)]; simp
  · simp only [fieldRn]
    rw [extract_high (by omega), extract_low (by omega)]; simp
  · simp only [fieldRd]
    rw [extract_low (by omega)]; simp

end Sys2Proof

namespace Sys2Proof.Laws

/-! ### Fixed bits and group -/

/-- The instruction's word lies in its row's group and carries the row's fixed bits. -/
def FixedBits.Statement (i : Instr) : Prop :=
  groupOf (op0Of (encode i)) = (rowOf i).1 ∧ (rowOf i).2.hits (encode i) = true

theorem FixedBits.subImmX (rd rn : Reg) (imm12 : BitVec 12) : FixedBits.Statement (.subImmX rd rn imm12) := by
  obtain ⟨h, h0, -⟩ := fields_imm 0b1101000100#10 imm12 (regField rn) (regField rd)
  exact ⟨(congrArg groupOf h0).trans rfl, (hits_fields _).1.mpr h⟩

theorem FixedBits.addSregW (rd rn rm : Reg) (shift : BitVec 2) (imm6 : BitVec 6) :
    FixedBits.Statement (.addSregW rd rn rm shift imm6) := by
  obtain ⟨h, h', h0, -⟩ := fields_addSreg shift imm6 (regField rm) (regField rn) (regField rd)
  exact ⟨(congrArg groupOf h0).trans rfl, (hits_fields _).2.1.mpr ⟨h, h'⟩⟩

theorem FixedBits.ldrUimmW (rt rn : Reg) (imm12 : BitVec 12) : FixedBits.Statement (.ldrUimmW rt rn imm12) := by
  obtain ⟨h, h0, -⟩ := fields_imm 0b1011100101#10 imm12 (regField rn) (regField rt)
  exact ⟨(congrArg groupOf h0).trans rfl, (hits_fields _).2.2.1.mpr h⟩

theorem FixedBits.ldrUimmX (rt rn : Reg) (imm12 : BitVec 12) : FixedBits.Statement (.ldrUimmX rt rn imm12) := by
  obtain ⟨h, h0, -⟩ := fields_imm 0b1111100101#10 imm12 (regField rn) (regField rt)
  exact ⟨(congrArg groupOf h0).trans rfl, (hits_fields _).2.2.2.1.mpr h⟩

theorem FixedBits.ldrswUimm (rt rn : Reg) (imm12 : BitVec 12) : FixedBits.Statement (.ldrswUimm rt rn imm12) := by
  obtain ⟨h, h0, -⟩ := fields_imm 0b1011100110#10 imm12 (regField rn) (regField rt)
  exact ⟨(congrArg groupOf h0).trans rfl, (hits_fields _).2.2.2.2.1.mpr h⟩

theorem FixedBits.strUimmW (rt rn : Reg) (imm12 : BitVec 12) : FixedBits.Statement (.strUimmW rt rn imm12) := by
  obtain ⟨h, h0, -⟩ := fields_imm 0b1011100100#10 imm12 (regField rn) (regField rt)
  exact ⟨(congrArg groupOf h0).trans rfl, (hits_fields _).2.2.2.2.2.1.mpr h⟩

theorem FixedBits.strUimmX (rt rn : Reg) (imm12 : BitVec 12) : FixedBits.Statement (.strUimmX rt rn imm12) := by
  obtain ⟨h, h0, -⟩ := fields_imm 0b1111100100#10 imm12 (regField rn) (regField rt)
  exact ⟨(congrArg groupOf h0).trans rfl, (hits_fields _).2.2.2.2.2.2.1.mpr h⟩

theorem FixedBits.ldrRegW (rt rn rm : Reg) (option : BitVec 3) (s : Bool) :
    FixedBits.Statement (.ldrRegW rt rn rm option s) := by
  obtain ⟨h, h', h0, -⟩ := fields_regOff 0b10111000011#11 option s (regField rm) (regField rn) (regField rt)
  exact ⟨(congrArg groupOf h0).trans rfl, (hits_fields _).2.2.2.2.2.2.2.1.mpr ⟨h, h'⟩⟩

theorem FixedBits.ldrRegX (rt rn rm : Reg) (option : BitVec 3) (s : Bool) :
    FixedBits.Statement (.ldrRegX rt rn rm option s) := by
  obtain ⟨h, h', h0, -⟩ := fields_regOff 0b11111000011#11 option s (regField rm) (regField rn) (regField rt)
  exact ⟨(congrArg groupOf h0).trans rfl, (hits_fields _).2.2.2.2.2.2.2.2.mpr ⟨h, h'⟩⟩

/-! ### Fields read back -/

/-- The instruction's row reads the instruction's fields back from its word. -/
def FieldsReadBack.Statement (i : Instr) : Prop := (rowOf i).2.build (encode i) = i

theorem FieldsReadBack.subImmX (rd rn : Reg) (imm12 : BitVec 12) :
    FieldsReadBack.Statement (.subImmX rd rn imm12) := by
  obtain ⟨-, -, hi, hn, hd⟩ := fields_imm 0b1101000100#10 imm12 (regField rn) (regField rd)
  simp only [FieldsReadBack.Statement, rowOf, rowSubImmX, encode, hi, hn, hd, resolve_regField]

theorem FieldsReadBack.addSregW (rd rn rm : Reg) (shift : BitVec 2) (imm6 : BitVec 6) :
    FieldsReadBack.Statement (.addSregW rd rn rm shift imm6) := by
  obtain ⟨-, -, -, hs, hi, hm, hn, hd⟩ := fields_addSreg shift imm6 (regField rm) (regField rn) (regField rd)
  simp only [FieldsReadBack.Statement, rowOf, rowAddSregW, encode, hs, hi, hm, hn, hd, resolve_regField]

theorem FieldsReadBack.ldrUimmW (rt rn : Reg) (imm12 : BitVec 12) :
    FieldsReadBack.Statement (.ldrUimmW rt rn imm12) := by
  obtain ⟨-, -, hi, hn, hd⟩ := fields_imm 0b1011100101#10 imm12 (regField rn) (regField rt)
  simp only [FieldsReadBack.Statement, rowOf, rowLdrUimmW, encode, hi, hn, hd, resolve_regField]

theorem FieldsReadBack.ldrUimmX (rt rn : Reg) (imm12 : BitVec 12) :
    FieldsReadBack.Statement (.ldrUimmX rt rn imm12) := by
  obtain ⟨-, -, hi, hn, hd⟩ := fields_imm 0b1111100101#10 imm12 (regField rn) (regField rt)
  simp only [FieldsReadBack.Statement, rowOf, rowLdrUimmX, encode, hi, hn, hd, resolve_regField]

theorem FieldsReadBack.ldrswUimm (rt rn : Reg) (imm12 : BitVec 12) :
    FieldsReadBack.Statement (.ldrswUimm rt rn imm12) := by
  obtain ⟨-, -, hi, hn, hd⟩ := fields_imm 0b1011100110#10 imm12 (regField rn) (regField rt)
  simp only [FieldsReadBack.Statement, rowOf, rowLdrswUimm, encode, hi, hn, hd, resolve_regField]

theorem FieldsReadBack.strUimmW (rt rn : Reg) (imm12 : BitVec 12) :
    FieldsReadBack.Statement (.strUimmW rt rn imm12) := by
  obtain ⟨-, -, hi, hn, hd⟩ := fields_imm 0b1011100100#10 imm12 (regField rn) (regField rt)
  simp only [FieldsReadBack.Statement, rowOf, rowStrUimmW, encode, hi, hn, hd, resolve_regField]

theorem FieldsReadBack.strUimmX (rt rn : Reg) (imm12 : BitVec 12) :
    FieldsReadBack.Statement (.strUimmX rt rn imm12) := by
  obtain ⟨-, -, hi, hn, hd⟩ := fields_imm 0b1111100100#10 imm12 (regField rn) (regField rt)
  simp only [FieldsReadBack.Statement, rowOf, rowStrUimmX, encode, hi, hn, hd, resolve_regField]

theorem FieldsReadBack.ldrRegW (rt rn rm : Reg) (option : BitVec 3) (s : Bool) :
    FieldsReadBack.Statement (.ldrRegW rt rn rm option s) := by
  obtain ⟨-, -, -, ho, hs, hm, hn, hd⟩ :=
    fields_regOff 0b10111000011#11 option s (regField rm) (regField rn) (regField rt)
  simp only [FieldsReadBack.Statement, rowOf, rowLdrRegW, encode, ho, hs, hm, hn, hd, resolve_regField]

theorem FieldsReadBack.ldrRegX (rt rn rm : Reg) (option : BitVec 3) (s : Bool) :
    FieldsReadBack.Statement (.ldrRegX rt rn rm option s) := by
  obtain ⟨-, -, -, ho, hs, hm, hn, hd⟩ :=
    fields_regOff 0b11111000011#11 option s (regField rm) (regField rn) (regField rt)
  simp only [FieldsReadBack.Statement, rowOf, rowLdrRegX, encode, ho, hs, hm, hn, hd, resolve_regField]

end Sys2Proof.Laws
end

