-- ==== Sys2Proof/Machine/Flags.lean ====
section
/-! DEFINITION. The block has no condition flags, condition codes or predicates, no instruction reads or writes one,
and no flag state exists (10_state.md R29; 40_cycle_and_datapath.md R117): there is no flag computation to define. -/
end

