-- ==== Sys2Proof/Tests/Slice0.lean ====
section
/-! SUPPORT. Tests whose expected results are the spec's own vectors (95_test_vectors.md, V-…, cited by name), and one
witness for the hypotheses of each obligation that has any. -/

namespace Sys2Proof.Tests

open Sys2Proof Sys2Proof.Machine

/-! ### Helpers -/

/-- The state after reset with some registers, SP and some bytes at an address. -/
def with4k (regs : List (Fin 31 × Word64)) (sp : Word64) (at_ : Nat) (bytes : List Byte) : State :=
  { regs.foldl (fun s r => s.writeDoubleWord r.1 r.2) State.reset with sp := sp, mem := Memory.fill [] at_ bytes }

/-- The same with an instruction word at PC. -/
def run (w : Word32) (regs : List (Fin 31 × Word64)) (sp : Word64) (at_ : Nat) (bytes : List Byte) : State :=
  (with4k regs sp at_ bytes).placeWord w

/-- What a look at the state after one step shows. -/
def look {α : Type} (f : State → α) (s : State) : Option α :=
  match step s with
  | .next t => some (f t)
  | .fault _ => none
  | .refused _ => none

/-- What a look at the state after an instruction's meaning shows. -/
def lookExec {α : Type} (f : State → α) (i : Instr) (s : State) : Option α :=
  match exec i s with
  | .next t => some (f t)
  | .fault _ => none
  | .refused _ => none

/-- `n` bytes of memory from an address. -/
def bytes (s : State) (a n : Nat) : List Byte := (List.range n).map fun k => s.byteAt (a + k)

/-! ### WellFormed: each check refuses an ill-formed term -/

theorem test_wf_refuses_shift_11 : (Instr.addSregW (.x 0) (.x 0) (.x 0) 0b11#2 0#6).wf = false := by decide
theorem test_wf_refuses_amount_32 : (Instr.addSregW (.x 0) (.x 0) (.x 0) 0b00#2 32#6).wf = false := by decide
theorem test_wf_refuses_option_000 : (Instr.ldrRegW (.x 0) (.x 0) (.x 0) 0b000#3 true).wf = false := by decide
theorem test_wf_refuses_option_101 : (Instr.ldrRegX (.x 0) (.x 0) (.x 0) 0b101#3 false).wf = false := by decide
theorem test_wf_accepts_last_amount : (Instr.addSregW .sp .sp .sp 0b10#2 31#6).wf = true := by decide
theorem test_wf_accepts_option_010 : (Instr.ldrRegX .sp .sp .sp 0b010#3 true).wf = true := by decide

/-! ### Decode: the group table (30_encoding.md R81) -/

theorem test_groups : (List.range 16).map (fun n => groupOf (BitVec.ofNat 4 n)) =
    [.reserved, .reserved, .reserved, .reserved, .loadStore, .dpReg, .loadStore, .fpSimd,
      .dpImm, .dpImm, .branchSystem, .branchSystem, .loadStore, .dpReg, .loadStore, .fpSimd] := by decide

/-! ### Decode: one word per constructor, written out from the pattern strings of 30_encoding.md R91 -/

theorem test_decode_sub : decodeWord 0b1101_0001_0000_0000_0001_0100_0100_0011#32 =
    .ok (.subImmX (.x 3) (.x 2) 5#12) := by decide
theorem test_decode_add : decodeWord 0b0000_1011_1000_0001_0000_1111_1110_0000#32 =
    .ok (.addSregW (.x 0) .sp (.x 1) 0b10#2 3#6) := by decide
theorem test_decode_ldr_w : decodeWord 0b1011_1001_0111_1111_1111_1100_0010_0000#32 =
    .ok (.ldrUimmW (.x 0) (.x 1) 0xFFF#12) := by decide
theorem test_decode_ldr_x : decodeWord 0b1111_1001_0100_0000_0000_0111_1110_0111#32 =
    .ok (.ldrUimmX (.x 7) .sp 1#12) := by decide
theorem test_decode_ldrsw : decodeWord 0b1011_1001_1000_0000_0000_0011_1110_0110#32 =
    .ok (.ldrswUimm (.x 6) .sp 0#12) := by decide
theorem test_decode_str_w : decodeWord 0b1011_1001_0000_0000_0000_0100_0001_1111#32 =
    .ok (.strUimmW .sp (.x 0) 1#12) := by decide
theorem test_decode_str_x : decodeWord 0b1111_1001_0000_0000_0000_0111_1110_0010#32 =
    .ok (.strUimmX (.x 2) .sp 1#12) := by decide
theorem test_decode_ldr_reg_w : decodeWord 0b1011_1000_0110_0010_1101_1000_0010_0000#32 =
    .ok (.ldrRegW (.x 0) (.x 1) (.x 2) 0b110#3 true) := by decide
theorem test_decode_ldr_reg_x : decodeWord 0b1111_1000_0111_1111_0110_1000_0010_0000#32 =
    .ok (.ldrRegX (.x 0) (.x 1) .sp 0b011#3 false) := by decide

/-- The words of V-DEC-1 to V-DEC-21, and V-DEC-22, V-DEC-23, which decode. -/
theorem test_decode_vectors : ([0x00000000, 0xD503201F, 0x14000000, 0x1E202800, 0x91000000, 0xD1400000, 0x51000000,
    0xF1000000, 0x0BC00000, 0x0B008000, 0x8B000000, 0x2B000000, 0x4B000000, 0x0B200000, 0x39400000, 0xB8400000,
    0xB8A06800, 0xBD400000, 0xF9800000, 0xB8620820, 0xB8628820, 0xD1000000, 0x0B000000].map
      fun w => (decodeWord (BitVec.ofNat 32 w)).isOk) = List.replicate 21 false ++ [true, true] := by decide

/-- The byte order of a word in the stream (20_memory.md R52, R53): `sub x0, x0, #0`, then one byte more. -/
theorem test_decode_bytes : decodeBytes [0x00#8, 0x00#8, 0x00#8, 0xD1#8, 0x77#8] =
    .ok (.subImmX (.x 0) (.x 0) 0#12, [0x77#8]) := by decide
theorem test_decode_table_word : decodeTableWord 32 0xB8600800 = none ∧
    decodeTableWord 32 0xB8604800 = some (.ldrRegW (.x 0) (.x 0) (.x 0) 0b010#3 false) := by decide

/-! ### Shift and extension functions: V-SH-1 to V-SH-9, and 30_encoding.md R89 -/

theorem test_shift_vectors :
    [applyShift .lsl 0x80000001#32 1, applyShift .lsr 0x80000001#32 1, applyShift .asr 0x80000001#32 1,
      applyShift .asr 0x80000000#32 31, applyShift .asr 0x7FFFFFFF#32 31, applyShift .lsr 0x80000000#32 31,
      applyShift .lsl 0x00000001#32 31, applyShift .asr 0x12345678#32 0, applyShift .asr 0xF0000000#32 4] =
    [0x00000002#32, 0x40000000#32, 0xC0000000#32, 0xFFFFFFFF#32, 0x00000000#32, 0x00000001#32, 0x80000000#32,
      0x12345678#32, 0xFF000000#32] := by decide

/-! ### One step each (95_test_vectors.md §2.2 to §2.6) -/

/-- V-SUB-4. -/
theorem test_sub_sp : look (fun t => (t.sp, t.pc, t.status)) (run 0xD10043FF#32 [] 0x200#64 0 []) =
    some (0x1F0#64, 4#64, .running) := by decide
/-- V-SUB-2. -/
theorem test_sub_wraps : look (fun t => (t.x[0], t.x[1])) (run 0xD1000420#32 [] 0#64 0 []) =
    some (0xFFFFFFFFFFFFFFFF#64, 0#64) := by decide
/-- V-ADD-3. -/
theorem test_add_wsp : look (fun t => (t.sp, t.cyc.aluResult))
    (run 0x0B02003F#32 [(1, 0xFFFFFFFF#64), (2, 1#64)] 0xAAAA000000000000#64 0 []) =
    some (0#64, some 0x100000000#64) := by decide
/-- V-ADD-4. -/
theorem test_add_asr : look (fun t => (t.x[0], t.cyc.opA, t.cyc.opB))
    (run 0x0B810FE0#32 [(1, 0xF0000000#64)] 0x123456789#64 0 []) =
    some (0x21456789#64, some 0x23456789#64, some 0xFE000000#64) := by decide
/-- V-LS-1. -/
theorem test_ldr_w : look (fun t => t.x[0]) (run 0xB9400020#32 [(1, 0x100#64)] 0#64 0x100 [1#8, 0#8, 0#8, 0x80#8]) =
    some 0x0000000080000001#64 := by decide
/-- V-LS-10. -/
theorem test_ldr_w_wraps : look (fun t => t.x[0]) (run 0xB9400420#32 [(1, 0xFFFFFFFFFFFFFFFC#64)] 0#64 0 []) =
    some 0xB9400420#64 := by decide
/-- V-LS-4. -/
theorem test_ldr_x : look (fun t => t.x[0])
    (run 0xF9400020#32 [(1, 0xFF8#64)] 0#64 0xFF8 [8#8, 7#8, 6#8, 5#8, 4#8, 3#8, 2#8, 1#8]) =
    some 0x0102030405060708#64 := by decide
/-- V-LS-6. -/
theorem test_ldr_x_misaligned : look (fun t => (t.status, t.faultAddr, t.x[0], t.pc, t.ir))
    (run 0xF9400020#32 [(0, 9#64), (1, 0x104#64)] 0#64 0 []) =
    some (.failAddress, 0x104#64, 9#64, 0#64, 0xF9400020#32) := by decide
/-- V-LS-2. -/
theorem test_ldrsw : look (fun t => t.x[0]) (run 0xB9800020#32 [(1, 0x100#64)] 0#64 0x100 [1#8, 0#8, 0#8, 0x80#8]) =
    some 0xFFFFFFFF80000001#64 := by decide
/-- V-LS-3. -/
theorem test_ldrsw_positive : look (fun t => t.x[0])
    (run 0xB9800020#32 [(1, 0x100#64)] 0#64 0x100 [0xFF#8, 0xFF#8, 0xFF#8, 0x7F#8]) = some 0x7FFFFFFF#64 := by decide
/-- V-LS-13. -/
theorem test_str_w : look (fun t => bytes t 0x400 12) (run 0xB900041F#32 [(0, 0x400#64)] 0x1122334455667788#64 0 []) =
    some [0#8, 0#8, 0#8, 0#8, 0x88#8, 0x77#8, 0x66#8, 0x55#8, 0#8, 0#8, 0#8, 0#8] := by decide
/-- V-LS-15. -/
theorem test_str_w_misaligned : look (fun t => (t.status, t.faultAddr, bytes t 0x10C 8))
    (run 0xB9000841#32 [(1, 0xFFFFFFFF#64), (2, 0x106#64)] 0#64 0 []) =
    some (.failAddress, 0x10E#64, List.replicate 8 0#8) := by decide
/-- V-LS-12. -/
theorem test_str_x : look (fun t => bytes t 0x300 8) (run 0xF9000021#32 [(1, 0x300#64)] 0#64 0 []) =
    some [0#8, 3#8, 0#8, 0#8, 0#8, 0#8, 0#8, 0#8] := by decide
/-- The second cycle of program P2. -/
theorem test_str_x_offset : look (fun t => (bytes t 0x1F8 8, t.x[2]))
    (run 0xF90007E2#32 [(2, 0x1122334455667788#64)] 0x1F0#64 0 []) =
    some ([0x88#8, 0x77#8, 0x66#8, 0x55#8, 0x44#8, 0x33#8, 0x22#8, 0x11#8], 0x1122334455667788#64) := by decide
/-- V-RO-3. -/
theorem test_ldr_reg_w_sxtw : look (fun t => (t.x[0], t.cyc.opB))
    (run 0xB862D820#32 [(1, 0x100#64), (2, 0xFFFFFFFF#64)] 0#64 0xFC [0x22#8]) =
    some (0x22#64, some 0xFFFFFFFFFFFFFFFC#64) := by decide
/-- V-RO-4. -/
theorem test_ldr_reg_w_unscaled : look (fun t => (t.status, t.faultAddr))
    (run 0xB8626820#32 [(1, 0x100#64), (2, 2#64)] 0#64 0 []) = some (.failAddress, 0x102#64) := by decide
/-- V-RO-8. -/
theorem test_ldr_reg_x_sp_index : look (fun t => t.x[0]) (run 0xF87F6820#32 [(1, 0x100#64)] 0x20#64 0x120 [0x66#8]) =
    some 0x66#64 := by decide
/-- V-RO-6, with the upper half of the index not zero (30_encoding.md R89, UXTW). -/
theorem test_ldr_reg_x_uxtw : look (fun t => t.x[0])
    (run 0xF8624820#32 [(1, 0x100#64), (2, 0xFFFFFFFF00000010#64)] 0#64 0x110 (List.replicate 8 0x44#8)) =
    some 0x4444444444444444#64 := by decide

/-- V-FE-1. -/
theorem test_fetch_at_end : look (fun t => (t.status, t.faultAddr, t.pc, t.ir))
    { State.reset with pc := 0x1000#64, ir := 0xD1000000#32 } =
    some (.failAddress, 0x1000#64, 0x1000#64, 0xD1000000#32) := by decide
/-- V-FE-2. -/
theorem test_fetch_misaligned : look (fun t => (t.status, t.faultAddr)) { State.reset with pc := 2#64 } =
    some (.failAddress, 2#64) := by decide
/-- V-FE-3. -/
theorem test_fetch_last_word : look (fun t => (t.status, t.pc))
    (({ State.reset with pc := 0xFFC#64 } : State).placeWord 0xD1000000#32) = some (.running, 0x1000#64) := by decide
/-- V-FE-4, by the host's level and by STOP_PC. -/
theorem test_finished : look id (State.reset.driveFinished true) =
      some { State.reset with finishedIn := true, status := .finished } ∧
    look id { State.reset with stopPc := some 0#64 } =
      some { State.reset with stopPc := some 0#64, status := .finished } := by decide
/-- V-FE-5. -/
theorem test_halted : look id { State.reset with status := .failDecode } =
    some { State.reset with status := .failDecode } := by decide
/-- The word 0 is a decode failure (30_encoding.md R94; 70_reset_and_hazards.md R232), and it stays in IR. -/
theorem test_reset_step : look (fun t => (t.status, t.pc, t.cyc.bundle)) { State.reset with ir := 7#32 } =
    some (.failDecode, 0#64, .undef) := by decide
theorem test_reset_wf : State.reset.mem.wf = true := by decide
theorem test_start_is_reset :
    (State.start ⟨4096, [], Vector.replicate 31 0#64, 0#64, 0#64, none, false, 0#32, 0#64⟩).toOption =
    some State.reset := by decide
theorem test_with_fetch_word : look (fun t => (t.ir, t.status)) (State.reset.withFetchWord 32 0xD1000000) =
    some (0xD1000000#32, .running) := by decide

/-! ### Witnesses: a state and operands that meet each statement's hypotheses -/

theorem witness_DecodeOfEncode : (Instr.addSregW (.x 30) .sp (.x 0) 0b10#2 31#6).wf = true ∧
    (Instr.ldrRegX .sp (.x 30) .sp 0b110#3 true).wf = true := by decide

theorem witness_EncodeOfDecode : decodeWord 0x0B860485#32 = .ok (.addSregW (.x 5) (.x 4) (.x 6) 0b10#2 1#6) := by
  decide

/-- The first and the last word of each clause's row. -/
theorem witness_DecodeReadsTheFieldsOfEachRow :
    ([0xD1000000#32, 0xD13FFFFF#32].all fun w => decide (w &&& 0xFFC00000#32 = 0xD1000000#32)) = true ∧
    ([0x0B000000#32, 0x0B9F7FFF#32].all fun w => decide (w &&& 0xFF200000#32 = 0x0B000000#32 ∧
      w.extractLsb' 22 2 ≠ 0b11#2 ∧ (w.extractLsb' 10 6).toNat < 32)) = true ∧
    ([0xB9400000#32, 0xB97FFFFF#32].all fun w => decide (w &&& 0xFFC00000#32 = 0xB9400000#32)) = true ∧
    ([0xF9400000#32, 0xF97FFFFF#32].all fun w => decide (w &&& 0xFFC00000#32 = 0xF9400000#32)) = true ∧
    ([0xB9800000#32, 0xB9BFFFFF#32].all fun w => decide (w &&& 0xFFC00000#32 = 0xB9800000#32)) = true ∧
    ([0xB9000000#32, 0xB93FFFFF#32].all fun w => decide (w &&& 0xFFC00000#32 = 0xB9000000#32)) = true ∧
    ([0xF9000000#32, 0xF93FFFFF#32].all fun w => decide (w &&& 0xFFC00000#32 = 0xF9000000#32)) = true ∧
    ([0xB8604800#32, 0xB87FFBFF#32].all fun w => decide (w &&& 0xFFE00C00#32 = 0xB8600800#32 ∧
      (w.extractLsb' 13 3).getLsbD 1 = true)) = true ∧
    ([0xF8604800#32, 0xF87FFBFF#32].all fun w => decide (w &&& 0xFFE00C00#32 = 0xF8600800#32 ∧
      (w.extractLsb' 13 3).getLsbD 1 = true)) = true := by
  decide

theorem witness_UnsupportedGroupsAreRefused :
    (0xD503201F#32 : Word32).extractLsb' 26 3 = 0b101#3 ∧ (0x1E202800#32 : Word32).extractLsb' 25 3 = 0b111#3 ∧
    (0x00000000#32 : Word32).extractLsb' 27 2 = 0b00#2 ∧ (0x07FFFFFF#32 : Word32).extractLsb' 27 2 = 0b00#2 := by decide

theorem witness_RegisterFieldsResolve : (30#5 : BitVec 5).toNat < 31 ∧ (0#5 : BitVec 5).toNat < 31 ∧
    decodeWord 0xF87F6820#32 = .ok (.ldrRegX (.x 0) (.x 1) .sp 0b011#3 false) := by decide

theorem witness_SixtyFourBitView : (30#5 : BitVec 5).toNat < 31 ∧ (0#5 : BitVec 5).toNat < 31 := by decide

theorem witness_NoCycleEndsInExecControlFailure : State.reset.status = .running ∧ ∃ t, step State.reset = .next t :=
  ⟨rfl, _, rfl⟩

theorem witness_ShiftedOperandValues : (31#6 : BitVec 6).toNat < 32 ∧ 32 ≤ (32#6 : BitVec 6).toNat ∧
    32 ≤ (63#6 : BitVec 6).toNat := by decide

theorem witness_ExtendedOffsetValues : (0b000#3 : BitVec 3).getLsbD 1 = false ∧
    (0b101#3 : BitVec 3).getLsbD 1 = false := by decide

theorem witness_AddSregWResult : shiftedOperand 0b10#2 31#6 0x80000000#32 = some 0xFFFFFFFF#32 ∧
    shiftedOperand 0b10#2 31#6 ((with4k [(2, 0x80000000#64)] 0 0 []).read32 (.x 2)) = some 0xFFFFFFFF#32 := by decide

/-- The last word of the memory (V-LS-5): the base is 0xFFC. -/
theorem witness_LdrUimmWResult : let s := with4k [(1, 0xFFC#64)] 0 0 [];
    0xFFC#64 = s.read64 (.x 1) + immOperand 2 0#12 ∧ (0xFFC#64 : Word64).toNat % 4 = 0 ∧
    (0xFFC#64 : Word64).toNat + 4 ≤ s.memSize := by decide

/-- The last double word of the memory (V-LS-4). -/
theorem witness_LdrUimmXResult : let s := with4k [(1, 0xFF0#64)] 0 0 [];
    0xFF8#64 = s.read64 (.x 1) + immOperand 3 1#12 ∧ (0xFF8#64 : Word64).toNat % 8 = 0 ∧
    (0xFF8#64 : Word64).toNat + 8 ≤ s.memSize := by decide

theorem witness_LdrswUimmResult : let s := with4k [] 0xFF8#64 0 [];
    0xFFC#64 = s.read64 .sp + immOperand 2 1#12 ∧ (0xFFC#64 : Word64).toNat % 4 = 0 ∧
    (0xFFC#64 : Word64).toNat + 4 ≤ s.memSize := by decide

/-- A base that wraps past 2^64 to the first word of the memory (V-LS-10). -/
theorem witness_StrUimmWResult : let s := with4k [(1, 0xFFFFFFFFFFFFFFFC#64)] 0 0 [];
    0#64 = s.read64 (.x 1) + immOperand 2 1#12 ∧ (0#64 : Word64).toNat % 4 = 0 ∧
    (0#64 : Word64).toNat + 4 ≤ s.memSize := by decide

theorem witness_StrUimmXResult : let s := with4k [(1, 0x7F8#64)] 0 0 [];
    0xFF8#64 = s.read64 (.x 1) + immOperand 3 256#12 ∧ (0xFF8#64 : Word64).toNat % 8 = 0 ∧
    (0xFF8#64 : Word64).toNat + 8 ≤ s.memSize := by decide

/-- V-RO-3. -/
theorem witness_LdrRegWResult : let s := with4k [(1, 0x100#64), (2, 0xFFFFFFFF#64)] 0 0 [];
    extendedOffset 2 0b110#3 true (s.read64 (.x 2)) = some 0xFFFFFFFFFFFFFFFC#64 ∧
    0xFC#64 = s.read64 (.x 1) + 0xFFFFFFFFFFFFFFFC#64 ∧ (0xFC#64 : Word64).toNat % 4 = 0 ∧
    (0xFC#64 : Word64).toNat + 4 ≤ s.memSize := by decide

/-- V-RO-8. -/
theorem witness_LdrRegXResult : let s := with4k [(1, 0x100#64)] 0x20#64 0 [];
    extendedOffset 3 0b011#3 false (s.read64 .sp) = some 0x20#64 ∧
    0x120#64 = s.read64 (.x 1) + 0x20#64 ∧ (0x120#64 : Word64).toNat % 8 = 0 ∧
    (0x120#64 : Word64).toNat + 8 ≤ s.memSize := by decide

theorem witness_ReservedFieldsRaiseDecodeFailure :
    (Instr.addSregW (.x 0) (.x 0) (.x 0) 0b00#2 32#6).wf = false ∧
    (Instr.ldrRegW (.x 0) (.x 0) (.x 0) 0b101#3 true).wf = false ∧
    (Instr.ldrRegX (.x 0) (.x 0) (.x 0) 0b000#3 true).wf = false := by decide

/-- A misaligned address (V-LS-6) and the first aligned one past the memory. -/
theorem witness_FailedAccessIsPrecise : let s := with4k [(1, 0x104#64), (2, 0x1000#64)] 0 0 [];
    (dataAccess (.ldrUimmX (.x 0) (.x 1) 0#12) s = some (0x104#64, 8) ∧
      ¬ ((0x104#64 : Word64).toNat % 8 = 0 ∧ (0x104#64 : Word64).toNat + 8 ≤ s.memSize)) ∧
    (dataAccess (.strUimmW (.x 0) (.x 2) 0#12) s = some (0x1000#64, 4) ∧
      ¬ ((0x1000#64 : Word64).toNat % 4 = 0 ∧ (0x1000#64 : Word64).toNat + 4 ≤ s.memSize)) := by decide

/-- A store that completes, to the last word of the memory. -/
theorem witness_EveryInstructionKeepsItsFrame :
    lookExec (fun t => t.status) (.strUimmW (.x 0) (.x 1) 0#12) (with4k [(0, 7#64), (1, 0xFFC#64)] 0 0 []) =
      some .running ∧
    storeRange (.strUimmW (.x 0) (.x 1) 0#12) (with4k [(0, 7#64), (1, 0xFFC#64)] 0 0 []) = some (0xFFC, 4) := by decide

/-- One completing and one failing instruction on a running block. -/
theorem witness_PcAdvancesExactlyOnSuccess : State.reset.status = .running ∧
    lookExec (fun t => t.status) (.subImmX (.x 0) (.x 0) 1#12) State.reset = some .running ∧
    lookExec (fun t => t.status) (.ldrUimmX (.x 0) (.x 1) 0#12) (with4k [(1, 0xFFC#64)] 0 0 []) =
      some .failAddress := by decide

theorem witness_StepRunsTheDecodedInstruction : let s := run 0xD1000420#32 [] 0 0 [];
    (s.status = .running ∧ s.finishedSampled = false) ∧ s.pc.toNat % 4 = 0 ∧ s.pc.toNat + 4 ≤ s.memSize ∧
    decodeWord (s.word32At s.pc.toNat) = .ok (.subImmX (.x 0) (.x 1) 1#12) := by decide

/-- At the last word of the memory. -/
theorem witness_PlacedWordRuns : let s : State := { State.reset with pc := 0xFFC#64 };
    (s.status = .running ∧ s.finishedSampled = false) ∧ s.pc.toNat % 4 = 0 ∧ s.pc.toNat + 4 ≤ s.memSize ∧
    decodeTableWord 32 0xB8604800 = some (.ldrRegW (.x 0) (.x 0) (.x 0) 0b010#3 false) := by decide

theorem witness_FailedFetchStopsTheRun :
    (let s : State := { State.reset with pc := 2#64 };
      (s.status = .running ∧ s.finishedSampled = false) ∧ ¬ (s.pc.toNat % 4 = 0 ∧ s.pc.toNat + 4 ≤ s.memSize)) ∧
    (let s : State := { State.reset with pc := 0x1000#64 };
      (s.status = .running ∧ s.finishedSampled = false) ∧
        ¬ (s.pc.toNat % 4 = 0 ∧ s.pc.toNat + 4 ≤ s.memSize)) := by decide

theorem witness_UndecodableWordStopsTheRun : State.reset.cycleStarts ∧ State.reset.pc.toNat % 4 = 0 ∧
    State.reset.pc.toNat + 4 ≤ State.reset.memSize ∧ ¬ MatchesTable (State.reset.word32At State.reset.pc.toNat) := by
  unfold State.cycleStarts MatchesTable
  decide

theorem witness_AddressingFailureExactlyWhenACheckFails : State.reset.cycleStarts := ⟨rfl, rfl⟩

/-- A failed fetch, a failed decode, a failed access. -/
theorem witness_FailureIsFatalAndPrecise :
    (State.reset.status = .running ∧ State.reset.finishedSampled = false) ∧
    look (fun t => t.status) { State.reset with pc := 2#64 } = some .failAddress ∧
    look (fun t => t.status) State.reset = some .failDecode ∧
    look (fun t => t.status) (run 0xF9400020#32 [(1, 0x104#64)] 0 0 []) = some .failAddress := by decide

theorem witness_SuccessfulStepKeepsItsFrame : let s := run 0xF9000021#32 [(1, 0x300#64)] 0 0 [];
    (s.status = .running ∧ s.finishedSampled = false) ∧ look (fun t => t.status) s = some .running := by decide

theorem witness_HaltedStateIsFinal : ({ State.reset with status := .failExecControl } : State).status ≠ .running := by
  decide

theorem witness_FinishedStopsBeforeTheFetch :
    (let s : State := { State.reset with finishedIn := true, pc := 3#64 };
      s.status = .running ∧ (s.finishedIn = true ∨ s.stopPc = some s.pc)) ∧
    (let s : State := { State.reset with stopPc := some 0#64 };
      s.status = .running ∧ (s.finishedIn = true ∨ s.stopPc = some s.pc)) := by decide

/-- Both widths at the last address that fits and the first that does not. -/
theorem witness_ReadGivesTheBytesInOrder :
    (4 = 4 ∨ 4 = 8) ∧ (8 = 4 ∨ 8 = 8) ∧
    ((0xFFC#64 : Word64).toNat % 4 = 0 ∧ (0xFFC#64 : Word64).toNat + 4 ≤ State.reset.memSize) ∧
    ((0xFF8#64 : Word64).toNat % 8 = 0 ∧ (0xFF8#64 : Word64).toNat + 8 ≤ State.reset.memSize) ∧
    ¬ ((0x1000#64 : Word64).toNat % 4 = 0 ∧ (0x1000#64 : Word64).toNat + 4 ≤ State.reset.memSize) ∧
    ¬ ((0xFFC#64 : Word64).toNat % 8 = 0 ∧ (0xFFC#64 : Word64).toNat + 8 ≤ State.reset.memSize) := by decide

theorem witness_WriteSetsExactlyItsBytes :
    ((0#64 : Word64).toNat % 4 = 0 ∧ (0#64 : Word64).toNat + 4 ≤ State.reset.memSize) ∧
    ((0xFF8#64 : Word64).toNat % 8 = 0 ∧ (0xFF8#64 : Word64).toNat + 8 ≤ State.reset.memSize) ∧
    ¬ ((2#64 : Word64).toNat % 4 = 0 ∧ (2#64 : Word64).toNat + 4 ≤ State.reset.memSize) ∧
    ¬ ((0x1000#64 : Word64).toNat % 8 = 0 ∧ (0x1000#64 : Word64).toNat + 8 ≤ State.reset.memSize) := by decide

theorem witness_WriteThenReadReturnsTheValue :
    ((0xFFC#64 : Word64).toNat % 4 = 0 ∧ (0xFFC#64 : Word64).toNat + 4 ≤ State.reset.memSize) ∧
    ((0xFF8#64 : Word64).toNat % 8 = 0 ∧ (0xFF8#64 : Word64).toNat + 8 ≤ State.reset.memSize) := by decide

theorem witness_MixedWidthAccessesAgree :
    (0xFF8#64 : Word64).toNat % 8 = 0 ∧ (0xFF8#64 : Word64).toNat + 8 ≤ State.reset.memSize := by decide

theorem witness_StoreThenLoadMovesTheRegister : let s := with4k [(1, 0xFF0#64)] 0 0 [];
    (s.read64 (.x 1) + immOperand 3 1#12).toNat % 8 = 0 ∧
    (s.read64 (.x 1) + immOperand 3 1#12).toNat + 8 ≤ s.memSize := by decide

/-- `str w0, [x1]` at 0 with `x1` the next address, 4. -/
theorem witness_StoreIsSeenByTheNextFetch : let s := run 0xB9000020#32 [(1, 4#64)] 0 0 [];
    (s.status = .running ∧ s.finishedSampled = false) ∧ s.pc.toNat % 4 = 0 ∧ s.pc.toNat + 4 ≤ s.memSize ∧
    decodeWord (s.word32At s.pc.toNat) = .ok (.strUimmW (.x 0) (.x 1) 0#12) ∧
    s.read64 (.x 1) + immOperand 2 0#12 = s.pc + 4#64 ∧ (s.pc + 4#64).toNat + 4 ≤ s.memSize ∧
    s.stopPc ≠ some (s.pc + 4#64) := by decide

/-- The same bytes entered in two orders, one of them overwritten with 0 on the way. -/
theorem witness_MemoriesThatReadAlikeAreEqual :
    (Memory.setByte (Memory.setByte [] 5 1#8) 3 2#8).wf = true ∧
    (Memory.setByte (Memory.setByte (Memory.setByte [] 3 2#8) 7 0#8) 5 1#8).wf = true ∧
    ∀ a : Nat, (Memory.setByte (Memory.setByte [] 5 1#8) 3 2#8).byte a =
      (Memory.setByte (Memory.setByte (Memory.setByte [] 3 2#8) 7 0#8) 5 1#8).byte a :=
  ⟨by decide, by decide, fun _ => rfl⟩

/-- A host that fills its whole memory of two bytes, the lower one with 9. -/
def host (memSize : Nat) (startPc : Word64) : Config.HostInputs :=
  ⟨memSize, [9#8, 1#8], Vector.replicate 31 5#64, 6#64, startPc, none, false, 0#32, 0#64⟩

theorem witness_StartSequenceValues : (host 2 0).image.length ≤ (host 2 0).memSize := by decide

theorem witness_OversizedImageStartsNoRun : (host 1 0).memSize < (host 1 0).image.length ∧
    (host 2 0).image.length ≤ (host 2 0).memSize := by decide

theorem witness_BadStartPcFailsAtTheFirstFetch :
    (host 4 0).image.length ≤ (host 4 2).memSize ∧ (host 4 2).finished = false ∧
    (host 4 2).stopPc ≠ some (host 4 2).startPc ∧
    ¬ ((host 4 2).startPc.toNat % 4 = 0 ∧ (host 4 2).startPc.toNat + 4 ≤ (host 4 2).memSize) ∧
    (host 4 4).stopPc ≠ some (host 4 4).startPc ∧
    ¬ ((host 4 4).startPc.toNat % 4 = 0 ∧ (host 4 4).startPc.toNat + 4 ≤ (host 4 4).memSize) := by decide

theorem witness_EveryStartSatisfiesTheInvariant : (host 2 0).legal = true ∧ ∃ s, State.start (host 2 0) = .ok s :=
  ⟨by decide, _, rfl⟩

theorem witness_StepKeepsTheInvariant : RunInvariant (run 0xF9000021#32 [(1, 0x300#64)] 0 0 []) ∧
    ∃ t, step (run 0xF9000021#32 [(1, 0x300#64)] 0 0 []) = .next t := by
  refine ⟨?_, _, rfl⟩
  unfold RunInvariant
  decide

theorem witness_RunsKeepTheHostInputs : ∃ t, Sys2Proof.core.run 2 State.reset = .next t := ⟨_, rfl⟩

theorem witness_EveryRunEnds : State.reset.memSize ≤ Config.maxMemSize := by decide

theorem witness_PcAlignmentNeverChanges : ∃ t, Sys2Proof.core.run 1 (run 0xD1000000#32 [] 0 0 []) = .next t := ⟨_, rfl⟩

theorem witness_UnspecifiedStartValuesNeverMatter :
    ArchSame State.reset { State.reset with ir := 7#32, faultAddr := 8#64, failedSignal := some .aluOp } :=
  ⟨rfl, rfl, rfl, rfl, rfl, rfl, rfl, rfl⟩

theorem witness_TransientsAreRecreated : State.reset.cycleStarts := ⟨rfl, rfl⟩

/-- The upper halves of `x1` and `x2` differ. -/
theorem witness_AddIgnoresTheUpperHalves :
    let s := with4k [(1, 0x100000007#64), (2, 0x300000001#64)] 0 0 [];
    let s' := with4k [(1, 7#64), (2, 1#64)] 0 0 [];
    shiftAllowed 0b10#2 = true ∧ amountAllowed 31#6 = true ∧
    s.read32 (.x 1) = s'.read32 (.x 1) ∧ s.read32 (.x 2) = s'.read32 (.x 2) := by decide

end Sys2Proof.Tests
end

section
/-! Register fields, views and references (10_state.md R24 to R28): what a field resolves to, which rows of the opcode
map the decoder can answer from, and the register views as integers. -/

namespace Sys2Proof

/-! ### Register fields (10_state.md R24) -/

@[simp] theorem resolve_field31 : resolve 31#5 = .sp := rfl

theorem resolve_of_lt {f : BitVec 5} (h : f.toNat < 31) : resolve f = .x ⟨f.toNat, h⟩ := dif_pos h

/-! ### The rows behind a decoded word -/

/-- The nine rows of the opcode map (30_encoding.md R91), over all three sub-decoders. -/
def opcodeRows : List Row := dpImmRows ++ dpRegRows ++ loadStoreRows

/-- A decoded instruction was built by one of the nine rows, which the word hits, and its constraint holds. -/
theorem decodeWord_ok {w : Word32} {i : Instr} (h : decodeWord w = .ok i) :
    ∃ r ∈ opcodeRows, r.hits w = true ∧ r.build w = i ∧ i.wf = true := by
  unfold decodeWord at h
  cases hg : groupOf (op0Of w) with
  | dpImm =>
    rw [hg] at h
    obtain ⟨r, hr, hrow⟩ := subDecode_ok h
    exact ⟨r, by simp [opcodeRows, hr], hrow⟩
  | dpReg =>
    rw [hg] at h
    obtain ⟨r, hr, hrow⟩ := subDecode_ok h
    exact ⟨r, by simp [opcodeRows, hr], hrow⟩
  | loadStore =>
    rw [hg] at h
    obtain ⟨r, hr, hrow⟩ := subDecode_ok h
    exact ⟨r, by simp [opcodeRows, hr], hrow⟩
  | branchSystem => rw [hg] at h; exact nomatch h
  | fpSimd => rw [hg] at h; exact nomatch h
  | reserved => rw [hg] at h; exact nomatch h

end Sys2Proof

namespace Sys2Proof.Machine

/-! ### Register operands (30_encoding.md R90) -/

/-- Every row takes its register operands from `IR[4:0]`, `IR[9:5]` and, where it has a third, `IR[20:16]`
(30_encoding.md R90). -/
theorem regOperands_build {r : Row} (hr : r ∈ opcodeRows) (w : Word32) :
    regOperands (r.build w) = [fieldRd w, fieldRn w] ∨
    regOperands (r.build w) = [fieldRd w, fieldRn w, fieldRm w] := by
  simp only [opcodeRows, dpImmRows, dpRegRows, loadStoreRows, List.cons_append, List.nil_append, List.mem_cons,
    List.not_mem_nil, or_false] at hr
  obtain rfl | rfl | rfl | rfl | rfl | rfl | rfl | rfl | rfl := hr
  · exact .inl rfl -- SUB_imm_X
  · exact .inr rfl -- ADD_sreg_W
  · exact .inl rfl -- LDR_uimm_W
  · exact .inl rfl -- LDR_uimm_X
  · exact .inl rfl -- LDRSW_uimm
  · exact .inl rfl -- STR_uimm_W
  · exact .inl rfl -- STR_uimm_X
  · exact .inr rfl -- LDR_reg_W
  · exact .inr rfl -- LDR_reg_X

section

variable (s : State)

/-! ### The 64-bit view (10_state.md R25) -/

theorem State.read64_sp : s.read64 .sp = s.sp := rfl

theorem State.read64_x (n : Fin 31) : s.read64 (.x n) = s.x[n.val] := rfl

theorem State.write64_sp (v : Word64) : s.write64 .sp v = { s with sp := v } := rfl

theorem State.write64_x (n : Fin 31) (v : Word64) :
    s.write64 (.x n) v = { s with x := s.x.set n.val v n.isLt } := rfl

/-! ### The 32-bit view and references (10_state.md R26 to R28) -/

theorem State.read32_eq_ofNat (r : Reg) : s.read32 r = BitVec.ofNat 32 (s.read64 r).toNat :=
  (BitVec.ofNat_toNat 32 (s.read64 r)).symm

/-- `zext_64(trunc_32(v))` as an integer. -/
theorem zext_trunc32 (v : Word64) : (v.setWidth 32).setWidth 64 = BitVec.ofNat 64 (v.toNat % 2 ^ 32) := by
  apply BitVec.eq_of_toNat_eq
  simp only [BitVec.toNat_setWidth, BitVec.toNat_ofNat]

theorem State.readRef_w32 (r : Reg) :
    s.readRef ⟨r, .w32⟩ = ((s.read64 r).setWidth 32).setWidth 64 := rfl

theorem State.readRef_w64 (r : Reg) : s.readRef ⟨r, .w64⟩ = s.read64 r := rfl

theorem State.regsSameBut_writeRef (r : Reg) (w : Width) (v : Word64) :
    RegsSameBut r s (s.writeRef ⟨r, w⟩ v) := fun _ hq => s.read64_writeRef_other hq w v

end

/-! ### The obligations on registers -/

/-- Settles O7: the decoded instruction was built by one of the nine rows, and each row resolves those fields. -/
theorem registerFieldsResolve : Obligations.RegisterFieldsResolve := by
  refine ⟨resolve_field31, fun f h => resolve_of_lt h, fun w i hdec => ?_⟩
  obtain ⟨r, hr, -, rfl, -⟩ := decodeWord_ok hdec
  exact regOperands_build hr w

/-- Settles O9: the register holds what the reference's width writes, and every other register reads as before. -/
theorem registerWriteThroughReference : Obligations.RegisterWriteThroughReference := by
  intro s r v
  have hw32 : (s.writeRef ⟨r, .w32⟩ v).read64 r = BitVec.ofNat 64 (v.toNat % 2 ^ 32) :=
    (s.read64_writeRef_same r .w32 v).trans (zext_trunc32 v)
  have hw64 : (s.writeRef ⟨r, .w64⟩ v).read64 r = v := s.read64_writeRef_same r .w64 v
  exact ⟨hw32, s.regsSameBut_writeRef r .w32 v, hw64, s.regsSameBut_writeRef r .w64 v⟩

/-- Settles O8, by the two cases of `resolve`. -/
theorem sixtyFourBitView : Obligations.SixtyFourBitView := by
  intro s v
  refine ⟨by rw [resolve_field31, State.read64_sp], by rw [resolve_field31, State.write64_sp], fun f h => ?_⟩
  rw [resolve_of_lt h]
  exact ⟨s.read64_x ⟨f.toNat, h⟩, s.write64_x ⟨f.toNat, h⟩ v⟩

/-- Settles O60: a reference reads the view its width names. -/
theorem registerReadThroughReference : Obligations.RegisterReadThroughReference := by
  intro s r
  have hw32 : s.readRef ⟨r, .w32⟩ = BitVec.ofNat 64 ((s.read64 r).toNat % 2 ^ 32) :=
    (s.readRef_w32 r).trans (zext_trunc32 (s.read64 r))
  exact ⟨s.read32_eq_ofNat r, hw32, s.readRef_w64 r⟩

end Sys2Proof.Machine
end

section
/-! The checked memory accesses as seen byte by byte (20_memory.md R55 to R59): what a read answers, what a write leaves
behind, and a write read back. -/

namespace Sys2Proof.Machine

/-! ### A load as its bytes (20_memory.md R52, R56) -/

/-- Bits `[8k+7:8k]` of a load are the `k`-th byte: the low byte stands at the address itself, those above it come from
the load at the next address. -/
theorem Memory.extractLsb'_load (n : Nat) :
    ∀ (m : Memory) (a k : Nat), k < n → (m.load a n).extractLsb' (8 * k) 8 = m.byte (a + k) := by
  induction n with
  | zero => intro m a k hk; omega
  | succ n ih =>
    intro m a k hk
    rw [Memory.load]
    cases k with
    | zero => exact BitVec.extractLsb'_append_eq_right
    | succ k =>
      calc (m.load (a + 1) n ++ m.byte a).extractLsb' (8 * (k + 1)) 8
          = (m.load (a + 1) n).extractLsb' (8 * k) 8 := BitVec.extractLsb'_append_eq_of_le (by omega)
        _ = m.byte (a + 1 + k) := ih m (a + 1) k (by omega)
        _ = m.byte (a + (k + 1)) := by rw [Nat.add_assoc, Nat.add_comm 1 k]

/-! ### The check (20_memory.md R55) -/

/-- The check reads MEM_SIZE only, never the bytes. -/
@[simp] theorem State.accessOk_setMem (s : State) (m : Memory) (addr : Word64) (n : Nat) :
    ({ s with mem := m }).accessOk addr n = s.accessOk addr n := rfl

theorem State.accessOk_eq_false_iff (s : State) (addr : Word64) (n : Nat) :
    s.accessOk addr n = false ↔ ¬ (addr.toNat % n = 0 ∧ addr.toNat + n ≤ s.memSize) := by
  rw [← s.accessOk_iff addr n, Bool.not_eq_true]

/-! ### The obligations on single accesses -/

/-- Settles O39: a read that passes the check answers the load, whose bytes are the memory's. -/
theorem readGivesTheBytesInOrder : Obligations.ReadGivesTheBytesInOrder := by
  intro s addr n _
  constructor
  · intro hok
    exact ⟨s.mem.load addr.toNat n, State.memRead_ok ((s.accessOk_iff addr n).mpr hok),
      Memory.extractLsb'_load n s.mem addr.toNat⟩
  · intro hno
    exact State.memRead_fail ((s.accessOk_eq_false_iff addr n).mpr hno)

/-- Settles O40: a write that passes the check answers the state with the bytes stored, and a store changes the bytes of
its range only. -/
theorem writeSetsExactlyItsBytes : Obligations.WriteSetsExactlyItsBytes := by
  intro s addr n v _
  constructor
  · intro hok
    refine ⟨_, State.memWrite_ok v ((s.accessOk_iff addr n).mpr hok), ?_, ?_, rfl⟩
    · exact Memory.byte_store_inside n s.mem addr.toNat v
    · exact Memory.byte_store_outside n s.mem addr.toNat v
  · intro hno
    exact State.memWrite_fail v ((s.accessOk_eq_false_iff addr n).mpr hno)

/-- Settles O41: a write leaves MEM_SIZE as it is, so the read passes the same check, and it loads what was stored. -/
theorem writeThenReadReturnsTheValue : Obligations.WriteThenReadReturnsTheValue := by
  intro s addr n v _ haligned hbound
  have hok : s.accessOk addr n = true := (s.accessOk_iff addr n).mpr ⟨haligned, hbound⟩
  refine ⟨_, State.memWrite_ok v hok, ?_⟩
  rw [State.memRead_ok ((s.accessOk_setMem _ addr n).trans hok)]
  exact congrArg Except.ok (Memory.load_store_same n s.mem addr.toNat v)

end Sys2Proof.Machine
end

section
/-! The end of a run (40_cycle_and_datapath.md R125, R128): a halted block steps to itself, and a cycle that fails stops
precisely, in the stage that failed. -/

namespace Sys2Proof.Machine

/-! ### A halted block (R128) -/

theorem step_halted {s : State} (h : s.status ≠ .running) : step s = .next s := if_pos h

/-- A step that answers a next state is the first step of a longer run. -/
theorem run_succ_of_next {s t : State} (h : step s = .next t) (n : Nat) :
    Sys2Proof.core.run (n + 1) s = Sys2Proof.core.run n t := by
  have hstep : Sys2Proof.core.step s = .next t := h
  simp only [Host.Core.run, hstep]

theorem run_halted {s : State} (h : s.status ≠ .running) (n : Nat) : Sys2Proof.core.run n s = .next s := by
  induction n with
  | zero => rfl
  | succ n ih => exact (run_succ_of_next (step_halted h) n).trans ih

/-- Settles O36, by induction on the number of steps. -/
theorem haltedStateIsFinal : Obligations.HaltedStateIsFinal := fun n _ h => run_halted h n

/-! ### Precise stops (60_exceptions.md R206) -/

theorem PreciseStop.of_same {s t : State} (hx : t.x = s.x) (hsp : t.sp = s.sp) (hpc : t.pc = s.pc)
    (hmem : t.mem = s.mem) (hhost : HostSame s t) : PreciseStop s t :=
  ⟨read64_congr hx hsp, hpc, byteAt_congr hmem, hhost⟩

theorem PreciseStop.trans {s t u : State} (hst : PreciseStop s t) (htu : PreciseStop t u) : PreciseStop s u := by
  obtain ⟨hregs, hpc, hbytes, hsize, hfin, hstop⟩ := hst
  obtain ⟨hregs', hpc', hbytes', hsize', hfin', hstop'⟩ := htu
  exact ⟨fun r => (hregs' r).trans (hregs r), hpc'.trans hpc, fun a => (hbytes' a).trans (hbytes a),
    hsize'.trans hsize, hfin'.trans hfin, hstop'.trans hstop⟩

theorem PreciseStop.raise (s : State) (f : Failure) : PreciseStop s (s.raise f) :=
  .of_same (by simp) (by simp) (by simp) (by simp) (by simp [HostSame])

theorem PreciseStop.beginCycle (s : State) : PreciseStop s s.beginCycle := .of_same rfl rfl rfl rfl ⟨rfl, rfl, rfl⟩

/-- Loading IR and passing to Decode changes nothing that a failure has to keep. -/
theorem PreciseStop.fetched (s : State) (w : Word32) :
    PreciseStop s ((s.beginCycle.loadIR w).enterStage .decode) := .of_same rfl rfl rfl rfl ⟨rfl, rfl, rfl⟩

/-- Decode and Execute write transients only. -/
theorem PreciseStop.executed (s : State) (d : DecoderOutput) (r : Word64) :
    PreciseStop s ((s.latchDecode d).latchALU r) := .of_same rfl rfl rfl rfl ⟨rfl, rfl, rfl⟩

/-! ### The stages after decode: status, and the one failure left -/

theorem memoryStage_ok_status {op : MemOp} {addr : Word64} {dest : RegRef} {s s' : State}
    (h : memoryStage op addr dest s = .ok s') : s'.status = s.status := by
  obtain hm | ⟨_, hm⟩ | ⟨_, _, -, hm⟩ | hm := memoryStage_cases op addr dest s
  · obtain rfl := Except.ok.inj (hm.symm.trans h); rfl
  · obtain rfl := Except.ok.inj (hm.symm.trans h); rfl
  · obtain rfl := Except.ok.inj (hm.symm.trans h); rfl
  · exact nomatch hm.symm.trans h

/-- Memory-Access raises no failure but the AddressingFailure of its own address. -/
theorem memoryStage_error {op : MemOp} {addr : Word64} {dest : RegRef} {s : State} {f : Failure}
    (h : memoryStage op addr dest s = .error f) : f = .addressing addr := by
  obtain hm | ⟨_, hm⟩ | ⟨_, _, -, hm⟩ | hm := memoryStage_cases op addr dest s
  · exact nomatch hm.symm.trans h
  · exact nomatch hm.symm.trans h
  · exact nomatch hm.symm.trans h
  · exact (Except.error.inj (hm.symm.trans h)).symm

@[simp] theorem writeBackStage_status (bd : Bundle) (r : Word64) (dest : RegRef) (s : State) :
    (writeBackStage bd r dest s).status = s.status := by
  cases hwb : bd.writeBackOp <;> simp [writeBackStage, hwb]

/-- No output of an instruction makes Execute fail: the floating flag is off and the ALU has an operation (R117). -/
theorem OutputOf.execute_ok {i : Instr} {s : State} {d : DecoderOutput} (h : OutputOf i s d) :
    ∃ r, executeStage d.bundle d.a d.b = .ok r := by
  cases hop : d.bundle.aluOp with
  | add => exact ⟨d.a + d.b, by simp [executeStage, h.integer, hop, alu]⟩
  | sub => exact ⟨d.a - d.b, by simp [executeStage, h.integer, hop, alu]⟩
  | none => exact absurd hop h.usesAlu

/-- Once Execute has given its result, the cycle ends in an AddressingFailure of that address, or completes with status
as it was. -/
theorem runStages_of_execute_ok {d : DecoderOutput} {s : State} {r : Word64}
    (h : executeStage d.bundle d.a d.b = .ok r) :
    runStages d s = .next (((s.latchDecode d).latchALU r).raise (.addressing r)) ∨
    ∃ t, runStages d s = .next t ∧ t.status = s.status := by
  cases hm : memoryStage d.bundle.memOp r d.dest ((s.latchDecode d).latchALU r) with
  | error f =>
    obtain rfl := memoryStage_error hm
    exact .inl (by simp only [runStages, h, hm])
  | ok s' => exact .inr ⟨_, by simp only [runStages, h, hm]; rfl, by simp [memoryStage_ok_status hm]⟩

/-- An instruction whose constraint holds either completes, with status as it was, or stops precisely on the
AddressingFailure of its access, with its word still in IR. -/
theorem exec_completes_or_failAddress {i : Instr} (s : State) (hwf : i.wf = true) : ∃ t, exec i s = .next t ∧
    (t.status = s.status ∨ (t.status = .failAddress ∧ t.ir = s.ir ∧ PreciseStop s t)) := by
  obtain ⟨hno, -⟩ | ⟨-, d, hex, hout⟩ := exec_stages i s
  · exact absurd hwf (by simp [hno])
  obtain ⟨r, hr⟩ := hout.execute_ok
  obtain hfail | ⟨t, ht, hst⟩ := runStages_of_execute_ok (s := s) hr
  · exact ⟨_, hex.trans hfail, .inr ⟨by simp, by simp, (PreciseStop.executed s d r).trans (.raise _ _)⟩⟩
  · exact ⟨t, hex.trans ht, .inl hst⟩

/-! ### All the ways a cycle can fail (R125) -/

/-- How a cycle from `s` that ended in `t` without leaving the block running failed: at the fetch, at decode, or at the
data access. -/
inductive CycleFailed (s t : State) : Prop
  | fetch (hpc : s.accessOk s.pc 4 = false) (hstatus : t.status = .failAddress) (hir : t.ir = s.ir)
  | decode (hpc : s.accessOk s.pc 4 = true) (e : DecodeReject) (hdec : decodeWord (s.word32At s.pc.toNat) = .error e)
      (hstatus : t.status = .failDecode) (hir : t.ir = s.word32At s.pc.toNat)
  | access (hpc : s.accessOk s.pc 4 = true) (i : Instr) (hdec : decodeWord (s.word32At s.pc.toNat) = .ok i)
      (hstatus : t.status = .failAddress) (hir : t.ir = s.word32At s.pc.toNat)

/-- A cycle that does not leave the block running failed in one of the three stages that can fail, and stopped
precisely. -/
theorem step_failed {s t : State} (hs : s.cycleStarts) (hstep : step s = .next t) (ht : t.status ≠ .running) :
    CycleFailed s t ∧ PreciseStop s t := by
  obtain ⟨hrun, hfin⟩ := hs
  obtain ⟨hhalt, -⟩ | ⟨-, hdone, -⟩ | ⟨-, hpc, hst⟩ |
    ⟨-, hpc, e, hdec, hst⟩ | ⟨-, hpc, i, hdec, hst⟩ := step_cases s
  · exact absurd hrun hhalt
  · exact absurd hdone (by simp [hfin])
  · -- the fetch of PC
    obtain rfl := Host.Outcome.next.inj (hst.symm.trans hstep)
    exact ⟨.fetch hpc (by simp) (by simp), (PreciseStop.beginCycle s).trans (.raise _ _)⟩
  · -- the decode of the fetched word
    obtain rfl := Host.Outcome.next.inj (hst.symm.trans hstep)
    rw [load_four] at hdec
    exact ⟨.decode hpc e hdec (by simp) (by simp [load_four]), (PreciseStop.fetched s _).trans (.raise _ _)⟩
  · -- the data access of the decoded instruction
    obtain ⟨r, -, -, -, hwf⟩ := decodeWord_ok hdec
    obtain ⟨u, hex, hu⟩ := exec_completes_or_failAddress
      ((s.beginCycle.loadIR (s.mem.load s.pc.toNat 4)).enterStage .decode) hwf
    obtain rfl := Host.Outcome.next.inj ((hst.trans hex).symm.trans hstep)
    obtain hdone | ⟨hstatus, hir, hprecise⟩ := hu
    · exact absurd (hdone.trans hrun) ht
    · rw [load_four] at hdec
      exact ⟨.access hpc i hdec hstatus (by simp [hir, load_four]), (PreciseStop.fetched s _).trans hprecise⟩

/-- Settles O34: by the stage that failed; that the run has stopped for good is `run_halted`. -/
theorem failureIsFatalAndPrecise : Obligations.FailureIsFatalAndPrecise := by
  intro s t hs hstep ht
  obtain ⟨hfailed, hprecise⟩ := step_failed hs hstep ht
  rw [← s.accessOk_iff]
  cases hfailed with
  | fetch hpc hstatus hir =>
    exact ⟨by rw [hstatus]; rfl, hprecise, fun _ => ⟨hstatus, hir⟩,
      fun hok => absurd hok (by simp [hpc]), run_halted ht⟩
  | decode hpc e hdec hstatus hir =>
    exact ⟨by rw [hstatus]; rfl, hprecise, fun hno => absurd hpc hno,
      fun _ => ⟨hir, fun _ _ => hstatus, fun _ hi => nomatch hdec.symm.trans hi⟩, run_halted ht⟩
  | access hpc i hdec hstatus hir =>
    exact ⟨by rw [hstatus]; rfl, hprecise, fun hno => absurd hpc hno,
      fun _ => ⟨hir, fun _ he => (nomatch hdec.symm.trans he), fun _ _ => hstatus⟩, run_halted ht⟩

end Sys2Proof.Machine
end

section
/-! The failures of a cycle (60_exceptions.md R201, R203): which words raise a DecodeFailure and what it leaves, and which
addresses a cycle can end in an AddressingFailure of. -/

namespace Sys2Proof

/-! ### The rows' compares and constraints (30_encoding.md R88, R89, R91) -/

theorem Row.hits_iff (r : Row) (w : Word32) : r.hits w = true ↔ w &&& r.mask = r.value := beq_iff_eq

theorem shiftAllowed_iff (shift : BitVec 2) : shiftAllowed shift = true ↔ shift ≠ 0b11#2 := bne_iff_ne

theorem amountAllowed_iff : ∀ imm6 : BitVec 6, amountAllowed imm6 = true ↔ imm6.toNat < 32 := by decide

/-- `option[1]` is bit 14 of the word. -/
theorem optionAllowed_fieldOption (w : Word32) : optionAllowed (fieldOption w) = w.getLsbD 14 := by
  simp [optionAllowed, fieldOption]

end Sys2Proof

namespace Sys2Proof.Machine

/-! ### Decoded words match the table (30_encoding.md R91) -/

/-- A word that hits a row whose constraint holds is one of the table's words. -/
theorem matchesTable_of_hits {r : Row} {w : Word32} (hr : r ∈ opcodeRows) (hit : r.hits w = true)
    (hwf : (r.build w).wf = true) : MatchesTable w := by
  rw [Row.hits_iff] at hit
  simp only [opcodeRows, dpImmRows, dpRegRows, loadStoreRows, List.cons_append, List.nil_append, List.mem_cons,
    List.not_mem_nil, or_false] at hr
  unfold MatchesTable
  obtain rfl | rfl | rfl | rfl | rfl | rfl | rfl | rfl | rfl := hr
  · exact .inl hit -- SUB_imm_X
  · -- ADD_sreg_W
    obtain ⟨hshift, hamount⟩ := (Bool.and_eq_true _ _).mp hwf
    exact .inr (.inl ⟨hit, (shiftAllowed_iff _).mp hshift, (amountAllowed_iff _).mp hamount⟩)
  · exact .inr (.inr (.inl hit)) -- LDR_uimm_W
  · exact .inr (.inr (.inr (.inl hit))) -- LDR_uimm_X
  · exact .inr (.inr (.inr (.inr (.inl hit)))) -- LDRSW_uimm
  · exact .inr (.inr (.inr (.inr (.inr (.inl hit))))) -- STR_uimm_W
  · exact .inr (.inr (.inr (.inr (.inr (.inr (.inl hit)))))) -- STR_uimm_X
  · -- LDR_reg_W
    exact .inr (.inr (.inr (.inr (.inr (.inr (.inr (.inl ⟨hit, (optionAllowed_fieldOption w).symm.trans hwf⟩)))))))
  · -- LDR_reg_X
    exact .inr (.inr (.inr (.inr (.inr (.inr (.inr (.inr ⟨hit, (optionAllowed_fieldOption w).symm.trans hwf⟩)))))))

theorem matchesTable_of_decodeWord_ok {w : Word32} {i : Instr} (h : decodeWord w = .ok i) : MatchesTable w := by
  obtain ⟨r, hr, hit, rfl, hwf⟩ := decodeWord_ok h
  exact matchesTable_of_hits hr hit hwf

/-! ### The cycle that starts (40_cycle_and_datapath.md R126) -/

/-- All that a starting cycle can be: a failed fetch, a failed decode, or the decoded instruction's meaning. -/
theorem cycle_cases {s : State} (hs : s.cycleStarts) :
    (s.accessOk s.pc 4 = false ∧ step s = .next (s.beginCycle.raise (.addressing s.pc))) ∨
    (s.accessOk s.pc 4 = true ∧ ∃ e, decodeWord (s.word32At s.pc.toNat) = .error e ∧
      step s = .next (((s.beginCycle.loadIR (s.word32At s.pc.toNat)).enterStage .decode).raise
        (.decode (s.word32At s.pc.toNat)))) ∨
    (s.accessOk s.pc 4 = true ∧ ∃ i, decodeWord (s.word32At s.pc.toNat) = .ok i ∧
      step s = exec i ((s.beginCycle.loadIR (s.word32At s.pc.toNat)).enterStage .decode)) := by
  obtain ⟨hrun, hfin⟩ := hs
  rw [← load_four]
  obtain ⟨hhalt, -⟩ | ⟨-, hdone, -⟩ | ⟨-, hfetch⟩ | ⟨-, hdecode⟩ | ⟨-, hexec⟩ := step_cases s
  · exact absurd hrun hhalt
  · exact absurd hdone (by simp [hfin])
  · exact .inl hfetch
  · exact .inr (.inl hdecode)
  · exact .inr (.inr hexec)

/-- Settles O32: a word outside the table does not decode, and the failing decode loads IR and changes nothing else. -/
theorem undecodableWordStopsTheRun : Obligations.UndecodableWordStopsTheRun := by
  intro s hs haligned hbound hno
  have hok : s.accessOk s.pc 4 = true := (s.accessOk_iff s.pc 4).mpr ⟨haligned, hbound⟩
  obtain ⟨hpc, -⟩ | ⟨-, e, -, hstep⟩ | ⟨-, i, hdec, -⟩ := cycle_cases hs
  · exact nomatch hok.symm.trans hpc
  · exact ⟨_, hstep, rfl, rfl, (PreciseStop.fetched s _).trans (.raise _ _), rfl, rfl, rfl, rfl, rfl, rfl⟩
  · exact absurd (matchesTable_of_decodeWord_ok hdec) hno

/-! ### When a data access fails (60_exceptions.md R203 (b)) -/

/-- The data access depends on the registers only. -/
theorem dataAccess_congr {s t : State} (h : RegsSame s t) (i : Instr) : dataAccess i t = dataAccess i s := by
  cases i <;> simp only [dataAccess, h _]

/-- Memory-Access goes through where the check passes for the width `MemOp` asks for. -/
theorem memoryStage_ok_of_accessOk {op : MemOp} {addr : Word64} {s : State} {n : Nat} (dest : RegRef)
    (hn : (n = 4 ∧ (op = .read32 ∨ op = .write32)) ∨ (n = 8 ∧ (op = .read64 ∨ op = .write64)))
    (h : s.accessOk addr n = true) : ∃ s', memoryStage op addr dest s = .ok s' := by
  obtain ⟨rfl, rfl | rfl⟩ | ⟨rfl, rfl | rfl⟩ := hn
  · exact ⟨_, by simp only [memoryStage, State.memRead_ok h]; rfl⟩
  · exact ⟨_, State.memWrite_ok _ h⟩
  · exact ⟨_, by simp only [memoryStage, State.memRead_ok h]; rfl⟩
  · exact ⟨_, State.memWrite_ok _ h⟩

/-- The cycle completes, with status as it was, once Execute and Memory-Access have gone through. -/
theorem runStages_completes {d : DecoderOutput} {s s' : State} {r : Word64}
    (hex : executeStage d.bundle d.a d.b = .ok r)
    (hm : memoryStage d.bundle.memOp r d.dest ((s.latchDecode d).latchALU r) = .ok s') :
    ∃ t, runStages d s = .next t ∧ t.status = s.status :=
  ⟨_, by simp only [runStages, hex, hm]; rfl, by simp [memoryStage_ok_status hm]⟩

/-- The cycle's outcome is a state stopped on `AddressingFailure(a)`. -/
def EndsInAddressingFailure (o : Host.Outcome State Fault Refusal) (a : Word64) : Prop :=
  ∃ t, o = .next t ∧ t.status = .failAddress ∧ t.faultAddr = a

theorem endsInAddressingFailure_next (t : State) (a : Word64) :
    EndsInAddressingFailure (.next t) a ↔ t.status = .failAddress ∧ t.faultAddr = a := by
  constructor
  · rintro ⟨_, ht, hfail⟩
    exact Host.Outcome.next.inj ht ▸ hfail
  · exact fun hfail => ⟨t, rfl, hfail⟩

theorem endsInAddressingFailure_raise (s : State) (a b : Word64) :
    EndsInAddressingFailure (.next (s.raise (.addressing b))) a ↔ b = a := by
  simp [endsInAddressingFailure_next]

theorem not_endsInAddressingFailure_of_running {t : State} (h : t.status = .running) (a : Word64) :
    ¬ EndsInAddressingFailure (.next t) a := by
  simp [endsInAddressingFailure_next, h]

/-- An instruction on a running block ends in `AddressingFailure(a)` exactly when it accesses `a` with a width whose
check fails. -/
theorem exec_endsInAddressingFailure_iff {i : Instr} {s : State} (hwf : i.wf = true) (hrun : s.status = .running)
    (a : Word64) :
    EndsInAddressingFailure (exec i s) a ↔ ∃ n, dataAccess i s = some (a, n) ∧ s.accessOk a n = false := by
  obtain ⟨hno, -⟩ | ⟨-, d, hex, hout⟩ := exec_stages i s
  · exact absurd hwf (by simp [hno])
  rw [hex]
  cases hacc : dataAccess i s with
  | none =>
    obtain ⟨hmem, -⟩ := hout.noAccess hacc
    obtain ⟨r, hr⟩ := hout.execute_ok
    obtain ⟨t, ht, hst⟩ := runStages_completes (s := s) hr (by rw [hmem]; rfl)
    rw [ht]
    simpa using not_endsInAddressingFailure_of_running (hst.trans hrun) a
  | some access =>
    obtain ⟨b, n⟩ := access
    obtain ⟨hop, rfl, hn⟩ := hout.access b n hacc
    cases hok : s.accessOk (d.a + d.b) n with
    | false =>
      rw [runStages_addressing hout.integer hop hn hok, endsInAddressingFailure_raise]
      constructor
      · rintro rfl
        exact ⟨n, rfl, hok⟩
      · rintro ⟨_, hsame, -⟩
        exact congrArg Prod.fst (Option.some.inj hsame)
    | true =>
      have hr : executeStage d.bundle d.a d.b = .ok (d.a + d.b) := by simp [executeStage, hout.integer, hop, alu]
      obtain ⟨_, hm⟩ := memoryStage_ok_of_accessOk (s := (s.latchDecode d).latchALU (d.a + d.b)) d.dest hn
        ((accessOk_congr rfl _ _).trans hok)
      obtain ⟨t, ht, hst⟩ := runStages_completes hr hm
      rw [ht]
      refine iff_of_false (not_endsInAddressingFailure_of_running (hst.trans hrun) a) ?_
      rintro ⟨_, hsame, hfail⟩
      obtain ⟨rfl, rfl⟩ := Prod.mk.inj (Option.some.inj hsame)
      exact nomatch hok.symm.trans hfail

/-- Settles O33, by what the cycle comes to: a failed fetch, a failed decode, or the decoded instruction's meaning. -/
theorem addressingFailureExactlyWhenACheckFails : Obligations.AddressingFailureExactlyWhenACheckFails := by
  intro s a hs
  change EndsInAddressingFailure (step s) a ↔ _
  simp only [← State.accessOk_iff, Bool.not_eq_true]
  obtain ⟨hpc, hstep⟩ | ⟨hpc, e, hdec, hstep⟩ | ⟨hpc, i, hdec, hstep⟩ := cycle_cases hs
  · rw [hstep, endsInAddressingFailure_raise]
    simpa [hpc] using eq_comm
  · rw [hstep, endsInAddressingFailure_next]
    simp [hpc, hdec]
  · obtain ⟨_, -, -, -, hwf⟩ := decodeWord_ok hdec
    obtain ⟨hregs, -, -, hsize, -⟩ := PreciseStop.fetched s (s.word32At s.pc.toNat)
    rw [hstep, exec_endsInAddressingFailure_iff hwf (by simpa using hs.1) a, dataAccess_congr hregs]
    simp [hpc, hdec, accessOk_congr hsize]

end Sys2Proof.Machine
end

section
/-! PROOFS. The start of a run (70_reset_and_hazards.md R230, R231): the two answers of `State.start`, one for each
side of its test of the image's length. -/

namespace Sys2Proof.Machine

/-- 70_reset_and_hazards.md R231: the refused load leaves no state. -/
theorem State.start_of_oversized {h : Config.HostInputs} (hbig : h.memSize < h.image.length) :
    State.start h = .error .imageTooLarge :=
  if_neg (Nat.not_le.mpr hbig)

/-- 70_reset_and_hazards.md R230: the length of the image is all that the start sequence tests. -/
theorem State.exists_start_of_fits {h : Config.HostInputs} (hfits : h.image.length ≤ h.memSize) :
    ∃ s, State.start h = .ok s :=
  ⟨_, if_pos hfits⟩

/-- Settles O48, by the two sides of the one test that `State.start` makes. -/
theorem oversizedImageStartsNoRun : Obligations.OversizedImageStartsNoRun :=
  fun _ => ⟨State.start_of_oversized, State.exists_start_of_fits⟩

end Sys2Proof.Machine
end

section
/-! PROOFS. The decoder and the encoder agree (30_encoding.md §1 to §5): no word hits two rows of the opcode map, a word's
group is its row's, so that the row a word hits decides its decode; and a word is its row's fields put together. -/

namespace Sys2Proof

/-! ### The row a word hits decides its decode (30_encoding.md R81, R91, R92) -/

/-- The rows of the sub-decoder that a group is dispatched to; none for a group without one (30_encoding.md R82). -/
def groupRows : Group → List Row
  | .dpImm => dpImmRows
  | .dpReg => dpRegRows
  | .loadStore => loadStoreRows
  | .branchSystem => []
  | .fpSimd => []
  | .reserved => []

theorem decodeWord_eq_subDecode {w : Word32} {g : Group} {r : Row} (hg : groupOf (op0Of w) = g)
    (hr : r ∈ groupRows g) : decodeWord w = subDecode g w (groupRows g) := by
  unfold decodeWord
  rw [hg]
  cases g with
  | dpImm => rfl
  | dpReg => rfl
  | loadStore => rfl
  | branchSystem => exact nomatch hr
  | fpSimd => exact nomatch hr
  | reserved => exact nomatch hr

/-- Two rows differ at a bit that both fix. -/
def Row.apart (r q : Row) : Prop := r.value &&& q.mask ≠ q.value &&& r.mask

theorem Row.not_hits_of_apart {r q : Row} {w : Word32} (h : q.apart r) (hit : r.hits w = true) :
    q.hits w = false := by
  by_contra hq
  rw [Bool.not_eq_false, Row.hits_iff] at hq
  rw [Row.hits_iff] at hit
  apply h
  rw [← hit, ← hq, BitVec.and_assoc, BitVec.and_assoc, BitVec.and_comm q.mask]

theorem groupRows_pairwise_apart (g : Group) : (groupRows g).Pairwise Row.apart := by
  unfold Row.apart
  cases g <;> decide

/-- Every row fixes all of `IR[28:25]`, and stands in the sub-decoder of the group it fixes there. -/
theorem op0_of_row {r : Row} (hr : r ∈ opcodeRows) :
    op0Of r.mask = BitVec.allOnes 4 ∧ r ∈ groupRows (groupOf (op0Of r.value)) := by
  simp only [opcodeRows, dpImmRows, dpRegRows, loadStoreRows, List.cons_append, List.nil_append, List.mem_cons,
    List.not_mem_nil, or_false] at hr
  obtain rfl | rfl | rfl | rfl | rfl | rfl | rfl | rfl | rfl := hr
  · exact ⟨rfl, .head _⟩ -- SUB_imm_X
  · exact ⟨rfl, .head _⟩ -- ADD_sreg_W
  · exact ⟨rfl, .head _⟩ -- LDR_uimm_W
  · exact ⟨rfl, .tail _ (.head _)⟩ -- LDR_uimm_X
  · exact ⟨rfl, .tail _ (.tail _ (.head _))⟩ -- LDRSW_uimm
  · exact ⟨rfl, .tail _ (.tail _ (.tail _ (.head _)))⟩ -- STR_uimm_W
  · exact ⟨rfl, .tail _ (.tail _ (.tail _ (.tail _ (.head _))))⟩ -- STR_uimm_X
  · exact ⟨rfl, .tail _ (.tail _ (.tail _ (.tail _ (.tail _ (.head _)))))⟩ -- LDR_reg_W
  · exact ⟨rfl, .tail _ (.tail _ (.tail _ (.tail _ (.tail _ (.tail _ (.head _))))))⟩ -- LDR_reg_X

theorem op0Of_eq_of_hits {r : Row} {w : Word32} (hr : r ∈ opcodeRows) (hit : r.hits w = true) :
    op0Of w = op0Of r.value := by
  obtain ⟨hmask, -⟩ := op0_of_row hr
  rw [Row.hits_iff] at hit
  calc op0Of w = op0Of w &&& op0Of r.mask := by rw [hmask, BitVec.and_allOnes]
    _ = op0Of (w &&& r.mask) := BitVec.extractLsb'_and.symm
    _ = op0Of r.value := by rw [hit]

/-- The one answer of the decoder on a word that hits a row: the row's instruction, where its constraint holds. -/
theorem decodeWord_of_hits {r : Row} {w : Word32} (hr : r ∈ opcodeRows) (hit : r.hits w = true) :
    decodeWord w = if (r.build w).wf then .ok (r.build w) else .error (.reservedField (r.build w)) := by
  obtain ⟨-, hmem⟩ := op0_of_row hr
  rw [decodeWord_eq_subDecode (congrArg groupOf (op0Of_eq_of_hits hr hit)) hmem]
  have hapart := groupRows_pairwise_apart (groupOf (op0Of r.value))
  obtain ⟨pre, post, hrows⟩ := List.append_of_mem hmem
  rw [hrows] at hapart ⊢
  obtain ⟨-, -, hpre⟩ := List.pairwise_append.mp hapart
  exact subDecode_hit (fun q hq => Row.not_hits_of_apart (hpre q hq r (.head _)) hit) hit

/-! ### Decode of encode -/

theorem rowOf_mem_opcodeRows (i : Instr) : (rowOf i).2 ∈ opcodeRows := by
  cases i <;> simp [rowOf, opcodeRows, dpImmRows, dpRegRows, loadStoreRows]

/-- The instruction's word hits the instruction's row. -/
theorem rowOf_hits_encode (i : Instr) : (rowOf i).2.hits (encode i) = true := by
  cases i with
  | subImmX rd rn imm12 => exact (Laws.FixedBits.subImmX rd rn imm12).2
  | addSregW rd rn rm shift imm6 => exact (Laws.FixedBits.addSregW rd rn rm shift imm6).2
  | ldrUimmW rt rn imm12 => exact (Laws.FixedBits.ldrUimmW rt rn imm12).2
  | ldrUimmX rt rn imm12 => exact (Laws.FixedBits.ldrUimmX rt rn imm12).2
  | ldrswUimm rt rn imm12 => exact (Laws.FixedBits.ldrswUimm rt rn imm12).2
  | strUimmW rt rn imm12 => exact (Laws.FixedBits.strUimmW rt rn imm12).2
  | strUimmX rt rn imm12 => exact (Laws.FixedBits.strUimmX rt rn imm12).2
  | ldrRegW rt rn rm option s => exact (Laws.FixedBits.ldrRegW rt rn rm option s).2
  | ldrRegX rt rn rm option s => exact (Laws.FixedBits.ldrRegX rt rn rm option s).2

/-- The instruction's row reads the instruction back from its word. -/
theorem rowOf_build_encode (i : Instr) : (rowOf i).2.build (encode i) = i := by
  cases i with
  | subImmX rd rn imm12 => exact Laws.FieldsReadBack.subImmX rd rn imm12
  | addSregW rd rn rm shift imm6 => exact Laws.FieldsReadBack.addSregW rd rn rm shift imm6
  | ldrUimmW rt rn imm12 => exact Laws.FieldsReadBack.ldrUimmW rt rn imm12
  | ldrUimmX rt rn imm12 => exact Laws.FieldsReadBack.ldrUimmX rt rn imm12
  | ldrswUimm rt rn imm12 => exact Laws.FieldsReadBack.ldrswUimm rt rn imm12
  | strUimmW rt rn imm12 => exact Laws.FieldsReadBack.strUimmW rt rn imm12
  | strUimmX rt rn imm12 => exact Laws.FieldsReadBack.strUimmX rt rn imm12
  | ldrRegW rt rn rm option s => exact Laws.FieldsReadBack.ldrRegW rt rn rm option s
  | ldrRegX rt rn rm option s => exact Laws.FieldsReadBack.ldrRegX rt rn rm option s

/-- A word with the fixed bits of an instruction's row, from which the row reads that instruction, decodes to it where
its constraint holds. -/
theorem decodeWord_of_rowOf {i : Instr} {w : Word32} (hfixed : w &&& (rowOf i).2.mask = (rowOf i).2.value)
    (hbuild : (rowOf i).2.build w = i) (hwf : i.wf = true) : decodeWord w = .ok i := by
  rw [decodeWord_of_hits (rowOf_mem_opcodeRows i) ((Row.hits_iff _ w).mpr hfixed), hbuild, if_pos hwf]

/-- Settles O1: the word hits the instruction's own row, which reads every field back. -/
theorem decodeOfEncode : Obligations.DecodeOfEncode := fun i hwf =>
  decodeWord_of_rowOf ((Row.hits_iff _ _).mp (rowOf_hits_encode i)) (rowOf_build_encode i) hwf

/-! ### Encode of decode: a word is its fields put together (30_encoding.md R83 to R86) -/

theorem word_of_imm_fields (w : Word32) :
    (w.extractLsb' 22 10 ++ w.extractLsb' 10 12 ++ w.extractLsb' 5 5 ++ w.extractLsb' 0 5 :
      BitVec (10 + 12 + 5 + 5)) = w := by
  rw [BitVec.extractLsb'_append_extractLsb'_eq_extractLsb' (start₂ := 22) (start₁ := 10) rfl,
    BitVec.extractLsb'_append_extractLsb'_eq_extractLsb' (start₂ := 10) (start₁ := 5) rfl,
    BitVec.extractLsb'_append_extractLsb'_eq_extractLsb' (start₂ := 5) (start₁ := 0) rfl, BitVec.extractLsb'_eq_self]

theorem word_of_addSreg_fields (w : Word32) :
    (w.extractLsb' 24 8 ++ w.extractLsb' 22 2 ++ w.extractLsb' 21 1 ++ w.extractLsb' 16 5 ++ w.extractLsb' 10 6 ++
      w.extractLsb' 5 5 ++ w.extractLsb' 0 5 : BitVec (8 + 2 + 1 + 5 + 6 + 5 + 5)) = w := by
  rw [BitVec.extractLsb'_append_extractLsb'_eq_extractLsb' (start₂ := 24) (start₁ := 22) rfl,
    BitVec.extractLsb'_append_extractLsb'_eq_extractLsb' (start₂ := 22) (start₁ := 21) rfl,
    BitVec.extractLsb'_append_extractLsb'_eq_extractLsb' (start₂ := 21) (start₁ := 16) rfl,
    BitVec.extractLsb'_append_extractLsb'_eq_extractLsb' (start₂ := 16) (start₁ := 10) rfl,
    BitVec.extractLsb'_append_extractLsb'_eq_extractLsb' (start₂ := 10) (start₁ := 5) rfl,
    BitVec.extractLsb'_append_extractLsb'_eq_extractLsb' (start₂ := 5) (start₁ := 0) rfl, BitVec.extractLsb'_eq_self]

theorem word_of_regOff_fields (w : Word32) :
    (w.extractLsb' 21 11 ++ w.extractLsb' 16 5 ++ w.extractLsb' 13 3 ++ w.extractLsb' 12 1 ++ w.extractLsb' 10 2 ++
      w.extractLsb' 5 5 ++ w.extractLsb' 0 5 : BitVec (11 + 5 + 3 + 1 + 2 + 5 + 5)) = w := by
  rw [BitVec.extractLsb'_append_extractLsb'_eq_extractLsb' (start₂ := 21) (start₁ := 16) rfl,
    BitVec.extractLsb'_append_extractLsb'_eq_extractLsb' (start₂ := 16) (start₁ := 13) rfl,
    BitVec.extractLsb'_append_extractLsb'_eq_extractLsb' (start₂ := 13) (start₁ := 12) rfl,
    BitVec.extractLsb'_append_extractLsb'_eq_extractLsb' (start₂ := 12) (start₁ := 10) rfl,
    BitVec.extractLsb'_append_extractLsb'_eq_extractLsb' (start₂ := 10) (start₁ := 5) rfl,
    BitVec.extractLsb'_append_extractLsb'_eq_extractLsb' (start₂ := 5) (start₁ := 0) rfl, BitVec.extractLsb'_eq_self]

theorem ofBool_fieldS (w : Word32) : BitVec.ofBool (fieldS w) = w.extractLsb' 12 1 := by
  rw [fieldS, BitVec.getLsbD_eq_extractLsb']
  generalize w.extractLsb' 12 1 = b
  revert b
  decide

/-- A word that hits a row is the encoding of what the row reads from it: the row fixes the bits that are no field. -/
theorem encode_build {r : Row} {w : Word32} (hr : r ∈ opcodeRows) (hit : r.hits w = true) :
    encode (r.build w) = w := by
  obtain ⟨hsub, hadd, hldrW, hldrX, hldrsw, hstrW, hstrX, hregW, hregX⟩ := hits_fields w
  have himm := word_of_imm_fields w
  have haddSreg := word_of_addSreg_fields w
  have hregOff := word_of_regOff_fields w
  have hregField : ∀ f : BitVec 5, regField (resolve f) = f := regField_resolve
  simp only [opcodeRows, dpImmRows, dpRegRows, loadStoreRows, List.cons_append, List.nil_append, List.mem_cons,
    List.not_mem_nil, or_false] at hr
  obtain rfl | rfl | rfl | rfl | rfl | rfl | rfl | rfl | rfl := hr
  · rw [hsub.mp hit] at himm
    simpa only [rowSubImmX, encode, fieldRd, fieldRn, fieldImm12, hregField] using himm
  · obtain ⟨htop, hbit⟩ := hadd.mp hit
    rw [htop, hbit] at haddSreg
    simpa only [rowAddSregW, encode, fieldRd, fieldRn, fieldRm, fieldShift, fieldImm6, hregField] using haddSreg
  · rw [hldrW.mp hit] at himm
    simpa only [rowLdrUimmW, encode, fieldRd, fieldRn, fieldImm12, hregField] using himm
  · rw [hldrX.mp hit] at himm
    simpa only [rowLdrUimmX, encode, fieldRd, fieldRn, fieldImm12, hregField] using himm
  · rw [hldrsw.mp hit] at himm
    simpa only [rowLdrswUimm, encode, fieldRd, fieldRn, fieldImm12, hregField] using himm
  · rw [hstrW.mp hit] at himm
    simpa only [rowStrUimmW, encode, fieldRd, fieldRn, fieldImm12, hregField] using himm
  · rw [hstrX.mp hit] at himm
    simpa only [rowStrUimmX, encode, fieldRd, fieldRn, fieldImm12, hregField] using himm
  · obtain ⟨htop, hlow⟩ := hregW.mp hit
    rw [htop, hlow] at hregOff
    simpa only [rowLdrRegW, encode, fieldRd, fieldRn, fieldRm, fieldOption, ofBool_fieldS, hregField] using hregOff
  · obtain ⟨htop, hlow⟩ := hregX.mp hit
    rw [htop, hlow] at hregOff
    simpa only [rowLdrRegX, encode, fieldRd, fieldRn, fieldRm, fieldOption, ofBool_fieldS, hregField] using hregOff

/-- Settles O2: the decoded instruction was built by a row that the word hits, its constraint holding. -/
theorem encodeOfDecode : Obligations.EncodeOfDecode := by
  intro w i hdec
  obtain ⟨r, hr, hit, rfl, hwf⟩ := decodeWord_ok hdec
  exact ⟨encode_build hr hit, hwf⟩

/-! ### The table's rows, and the words outside them (30_encoding.md R91, R93) -/

/-- Settles O3: a word with a row's fixed bits hits that row, and its constraint is the one of the clause. -/
theorem decodeReadsTheFieldsOfEachRow : Obligations.DecodeReadsTheFieldsOfEachRow := by
  intro w
  refine ⟨fun h => decodeWord_of_rowOf h rfl rfl, fun h hshift hamount => decodeWord_of_rowOf h rfl ?_,
    fun h => decodeWord_of_rowOf h rfl rfl, fun h => decodeWord_of_rowOf h rfl rfl,
    fun h => decodeWord_of_rowOf h rfl rfl, fun h => decodeWord_of_rowOf h rfl rfl,
    fun h => decodeWord_of_rowOf h rfl rfl, fun h hopt => decodeWord_of_rowOf h rfl hopt,
    fun h hopt => decodeWord_of_rowOf h rfl hopt⟩
  exact (Bool.and_eq_true _ _).mpr ⟨(shiftAllowed_iff _).mpr hshift, (amountAllowed_iff _).mpr hamount⟩

theorem decodeWord_ok_of_matchesTable {w : Word32} (h : Machine.MatchesTable w) : ∃ i, decodeWord w = .ok i := by
  obtain ⟨hsub, hadd, hldrW, hldrX, hldrsw, hstrW, hstrX, hregW, hregX⟩ := decodeReadsTheFieldsOfEachRow w
  have hbit : (w.extractLsb' 13 3).getLsbD 1 = w.getLsbD 14 := optionAllowed_fieldOption w
  obtain h | ⟨h, hshift, hamount⟩ | h | h | h | h | h | ⟨h, hopt⟩ | ⟨h, hopt⟩ := h
  · exact ⟨_, hsub h⟩
  · exact ⟨_, hadd h hshift hamount⟩
  · exact ⟨_, hldrW h⟩
  · exact ⟨_, hldrX h⟩
  · exact ⟨_, hldrsw h⟩
  · exact ⟨_, hstrW h⟩
  · exact ⟨_, hstrX h⟩
  · exact ⟨_, hregW h (hbit.trans hopt)⟩
  · exact ⟨_, hregX h (hbit.trans hopt)⟩

/-- Settles O4: a word decodes to an instruction exactly when it matches the table. -/
theorem decodeFailsOnExactlyTheOtherWords : Obligations.DecodeFailsOnExactlyTheOtherWords := by
  intro w
  constructor
  · rintro ⟨e, he⟩ hmatch
    obtain ⟨i, hi⟩ := decodeWord_ok_of_matchesTable hmatch
    exact nomatch he.symm.trans hi
  · intro hno
    cases hdec : decodeWord w with
    | error e => exact ⟨e, rfl⟩
    | ok i => exact absurd (Machine.matchesTable_of_decodeWord_ok hdec) hno

/-! ### Groups without a sub-decoder (30_encoding.md R81, R82) -/

/-- `op0` is `IR[28:25]`: its own bits are bits of the word. -/
theorem extractLsb'_op0Of (w : Word32) {start len : Nat} (h : start + len ≤ 4) :
    (op0Of w).extractLsb' start len = w.extractLsb' (25 + start) len := by
  ext j hj
  simp [op0Of, show start + j < 4 by omega, Nat.add_assoc]

/-- 30_encoding.md R81, the rows without a sub-decoder. -/
theorem groupOf_unsupported : ∀ op0 : BitVec 4,
    (op0.extractLsb' 1 3 = 0b101#3 → groupOf op0 = .branchSystem) ∧
    (op0.extractLsb' 0 3 = 0b111#3 → groupOf op0 = .fpSimd) ∧
    (op0.extractLsb' 2 2 = 0b00#2 → groupOf op0 = .reserved) := by decide

/-- Settles O5: the group bits alone decide, and the dispatch refuses these three groups. -/
theorem unsupportedGroupsAreRefused : Obligations.UnsupportedGroupsAreRefused := by
  intro w
  obtain ⟨hbranch, hfp, hreserved⟩ := groupOf_unsupported (op0Of w)
  rw [extractLsb'_op0Of w (by omega)] at hbranch hfp hreserved
  refine ⟨fun h => ?_, fun h => ?_, fun h => ?_⟩
  · rw [decodeWord, hbranch h]
  · rw [decodeWord, hfp h]
  · rw [decodeWord, hreserved h]

/-- Settles O6, word by word. -/
theorem workedExampleWordsDecode : Obligations.WorkedExampleWordsDecode := by
  unfold Obligations.WorkedExampleWordsDecode
  decide

end Sys2Proof
end

section
/-! PROOFS. Said once: all that an instruction's meaning can end in, and all that a step can end in
(40_cycle_and_datapath.md R124 to R128). The statements about frames, PC and status follow from these two. -/

namespace Sys2Proof.Machine

/-! ### The host's parameters and inputs -/

theorem HostSame.refl (s : State) : HostSame s s := ⟨rfl, rfl, rfl⟩

theorem HostSame.trans {s t u : State} (hst : HostSame s t) (htu : HostSame t u) : HostSame s u := by
  obtain ⟨hsize, hfin, hstop⟩ := hst
  obtain ⟨hsize', hfin', hstop'⟩ := htu
  exact ⟨hsize'.trans hsize, hfin'.trans hfin, hstop'.trans hstop⟩

/-! ### What the stages after Execute write -/

/-- Memory-Access writes memory and transients only. -/
theorem memoryStage_ok_shape {op : MemOp} {addr : Word64} {dest : RegRef} {s s' : State}
    (h : memoryStage op addr dest s = .ok s') : ∃ m c, s' = { s with mem := m, cyc := c } := by
  obtain hm | ⟨_, hm⟩ | ⟨_, _, -, hm⟩ | hm := memoryStage_cases op addr dest s
  · obtain rfl := Except.ok.inj (hm.symm.trans h); exact ⟨_, _, rfl⟩
  · obtain rfl := Except.ok.inj (hm.symm.trans h); exact ⟨_, _, rfl⟩
  · obtain rfl := Except.ok.inj (hm.symm.trans h); exact ⟨_, _, rfl⟩
  · exact nomatch hm.symm.trans h

/-- Write-back leaves the state, or writes one value through `Dest`. -/
theorem writeBackStage_cases (bd : Bundle) (r : Word64) (dest : RegRef) (s : State) :
    (bd.writeBackOp = .none ∧ writeBackStage bd r dest s = s) ∨
    (bd.writeBackOp = .registerWrite ∧ ∃ v, writeBackStage bd r dest s = s.writeRef dest v) := by
  cases h : bd.writeBackOp with
  | none => exact .inl ⟨rfl, by simp only [writeBackStage, h]⟩
  | registerWrite => exact .inr ⟨rfl, _, by simp only [writeBackStage, h]; rfl⟩

theorem State.writeRef_shape (s : State) (ref : RegRef) (v : Word64) :
    ∃ x sp, s.writeRef ref v = { s with x := x, sp := sp } := by
  obtain ⟨r, w⟩ := ref
  cases r <;> cases w <;> exact ⟨_, _, rfl⟩

/-- Write-back writes registers only. -/
theorem writeBackStage_shape (bd : Bundle) (r : Word64) (dest : RegRef) (s : State) :
    ∃ x sp, writeBackStage bd r dest s = { s with x := x, sp := sp } := by
  obtain ⟨-, h⟩ | ⟨-, v, h⟩ := writeBackStage_cases bd r dest s
  · exact ⟨_, _, h⟩
  · rw [h]; exact s.writeRef_shape dest v

/-- The registers after a write-back: all but the one written read as before. -/
theorem read64_writeBackStage_other {bd : Bundle} {dest : RegRef} {q : Reg}
    (h : bd.writeBackOp = .registerWrite → q ≠ dest.target) (r : Word64) (s : State) :
    (writeBackStage bd r dest s).read64 q = s.read64 q := by
  obtain ⟨-, hwb⟩ | ⟨hreg, v, hwb⟩ := writeBackStage_cases bd r dest s
  · rw [hwb]
  · rw [hwb]; exact s.read64_writeRef_other (h hreg) dest.width v

theorem runStages_execute_error {d : DecoderOutput} {f : Failure} (s : State)
    (hr : executeStage d.bundle d.a d.b = .error f) : runStages d s = .next ((s.latchDecode d).raise f) := by
  simp only [runStages, hr]

theorem runStages_memory_error {d : DecoderOutput} {s : State} {r : Word64} {f : Failure}
    (hr : executeStage d.bundle d.a d.b = .ok r)
    (hm : memoryStage d.bundle.memOp r d.dest ((s.latchDecode d).latchALU r) = .error f) :
    runStages d s = .next (((s.latchDecode d).latchALU r).raise f) := by
  simp only [runStages, hr, hm]

theorem runStages_eq_next {d : DecoderOutput} {s s' : State} {r : Word64}
    (hr : executeStage d.bundle d.a d.b = .ok r)
    (hm : memoryStage d.bundle.memOp r d.dest ((s.latchDecode d).latchALU r) = .ok s') :
    runStages d s = .next (writeBackStage d.bundle r d.dest (s'.enterStage .writeBack)).completeCycle := by
  simp only [runStages, hr, hm]

/-! ### The outcomes of an instruction's meaning -/

/-- What memory is after an instruction: as it was, or with one checked store to the instruction's range. -/
def MemoryKept (i : Instr) (s t : State) : Prop :=
  t.mem = s.mem ∨ ∃ (addr : Word64) (n : Nat) (v : BitVec (8 * n)), storeRange i s = some (addr.toNat, n) ∧
    s.accessOk addr n = true ∧ t.mem = s.mem.store addr.toNat n v

/-- The cycle of `i` went through from decode on (40_cycle_and_datapath.md R124, R127). -/
structure Completed (i : Instr) (s t : State) : Prop where
  access : ∀ addr n, dataAccess i s = some (addr, n) → s.accessOk addr n = true
  pc : t.pc = s.pc + 4#64
  report : ReportSame s t
  host : HostSame s t
  driver : t.cyc.driver = .fetch
  regs : ∀ r, destOf i ≠ some r → t.read64 r = s.read64 r
  mem : MemoryKept i s t

/-- All that an instruction's meaning can end in. -/
inductive ExecResult (i : Instr) (s t : State) : Prop
  | reserved (hwf : i.wf = false) (ht : t = s.raise (.decode s.ir))
  | accessFailed (hwf : i.wf = true) (addr : Word64) (n : Nat) (hacc : dataAccess i s = some (addr, n))
      (hno : s.accessOk addr n = false) (d : DecoderOutput)
      (ht : t = ((s.latchDecode d).latchALU addr).raise (.addressing addr))
  | completed (hwf : i.wf = true) (h : Completed i s t)

/-- What Memory-Access does for an instruction whose access, if it has one, passes its check. -/
theorem OutputOf.memoryStage_ok {i : Instr} {s : State} {d : DecoderOutput} {r : Word64} (h : OutputOf i s d)
    (hr : executeStage d.bundle d.a d.b = .ok r)
    (hok : ∀ addr n, dataAccess i s = some (addr, n) → s.accessOk addr n = true) :
    ∃ s', memoryStage d.bundle.memOp r d.dest ((s.latchDecode d).latchALU r) = .ok s' ∧ MemoryKept i s s' := by
  cases hacc : dataAccess i s with
  | none =>
    obtain ⟨hop, -⟩ := h.noAccess hacc
    exact ⟨_, by rw [hop]; rfl, .inl (by rfl)⟩
  | some access =>
    obtain ⟨addr, n⟩ := access
    have hpass : s.accessOk addr n = true := hok addr n hacc
    obtain ⟨hadd, rfl, hn⟩ := h.access addr n hacc
    obtain rfl : d.a + d.b = r := by simpa [executeStage, h.integer, hadd, alu] using hr
    have hpass' : ((s.latchDecode d).latchALU (d.a + d.b)).accessOk (d.a + d.b) n = true :=
      (accessOk_congr rfl _ _).trans hpass
    have hrange (hw : d.bundle.memOp = .write32 ∨ d.bundle.memOp = .write64) :
        storeRange i s = some ((d.a + d.b).toNat, n) := by
      cases hst : storeRange i s with
      | none =>
        obtain ⟨hno32, hno64⟩ := h.noStore hst
        exact (hw.elim hno32 hno64).elim
      | some range =>
        obtain ⟨lo, k⟩ := range
        obtain ⟨a, ha, rfl⟩ := h.store lo k hst
        obtain ⟨rfl, rfl⟩ := Prod.mk.inj (Option.some.inj (hacc.symm.trans ha))
        rfl
    obtain ⟨rfl, hop | hop⟩ | ⟨rfl, hop | hop⟩ := hn
    · exact ⟨_, by simp only [hop, memoryStage, State.memRead_ok hpass']; rfl, .inl (by rfl)⟩
    · exact ⟨_, by rw [hop]; exact State.memWrite_ok _ hpass', .inr ⟨_, 4, _, hrange (.inl hop), hpass, rfl⟩⟩
    · exact ⟨_, by simp only [hop, memoryStage, State.memRead_ok hpass']; rfl, .inl (by rfl)⟩
    · exact ⟨_, by rw [hop]; exact State.memWrite_ok _ hpass', .inr ⟨_, 8, _, hrange (.inr hop), hpass, rfl⟩⟩

/-- A cycle whose Execute and Memory-Access went through keeps everything R127 says. -/
theorem OutputOf.completed {i : Instr} {s s' : State} {d : DecoderOutput} {r : Word64} (h : OutputOf i s d)
    (hok : ∀ addr n, dataAccess i s = some (addr, n) → s.accessOk addr n = true)
    (hm : memoryStage d.bundle.memOp r d.dest ((s.latchDecode d).latchALU r) = .ok s') (hmem : MemoryKept i s s') :
    Completed i s (writeBackStage d.bundle r d.dest (s'.enterStage .writeBack)).completeCycle := by
  have hregs (q : Reg) (hq : destOf i ≠ some q) :
      (writeBackStage d.bundle r d.dest (s'.enterStage .writeBack)).read64 q = s'.read64 q := by
    rw [read64_writeBackStage_other _ r, State.read64_enterStage]
    intro hwb heq
    cases hdest : destOf i with
    | none => exact nomatch hwb.symm.trans (h.noWrite hdest)
    | some p =>
      obtain ⟨htarget, -⟩ := h.writes p hdest
      exact hq (by rw [hdest, heq, htarget])
  obtain ⟨m, c, rfl⟩ := memoryStage_ok_shape hm
  obtain ⟨x, sp, hwb⟩ := writeBackStage_shape d.bundle r d.dest
    (({ (s.latchDecode d).latchALU r with mem := m, cyc := c } : State).enterStage .writeBack)
  rw [hwb] at hregs ⊢
  exact ⟨hok, rfl, ⟨rfl, rfl, rfl, rfl⟩, ⟨rfl, rfl, rfl⟩, rfl,
    fun q hq => (hregs q hq).trans (read64_congr rfl rfl q), hmem⟩

/-- Every instruction on every state has a next state, and it is one of the three. -/
theorem exec_result (i : Instr) (s : State) : ∃ t, exec i s = .next t ∧ ExecResult i s t := by
  obtain ⟨hwf, hex⟩ | ⟨hwf, d, hex, hout⟩ := exec_stages i s
  · exact ⟨_, hex, .reserved hwf rfl⟩
  by_cases hok : ∀ addr n, dataAccess i s = some (addr, n) → s.accessOk addr n = true
  · obtain ⟨r, hr⟩ := hout.execute_ok
    obtain ⟨s', hm, hmem⟩ := hout.memoryStage_ok hr hok
    exact ⟨_, hex.trans (runStages_eq_next hr hm), .completed hwf (hout.completed hok hm hmem)⟩
  · simp only [not_forall, Bool.not_eq_true] at hok
    obtain ⟨addr, n, hacc, hno⟩ := hok
    obtain ⟨hadd, rfl, hn⟩ := hout.access addr n hacc
    exact ⟨_, hex.trans (runStages_addressing hout.integer hadd hn hno), .accessFailed hwf _ n hacc hno d rfl⟩

theorem execResult_of_next {i : Instr} {s t : State} (h : exec i s = .next t) : ExecResult i s t := by
  obtain ⟨u, hu, hres⟩ := exec_result i s
  obtain rfl := Host.Outcome.next.inj (hu.symm.trans h)
  exact hres

/-! ### The outcomes of a step -/

/-- The state the decoded instruction's meaning starts from: the word at PC in IR, no transient produced. -/
abbrev State.fetched (s : State) : State := (s.beginCycle.loadIR (s.word32At s.pc.toNat)).enterStage .decode

/-- All that a step can end in. -/
inductive StepResult (s t : State) : Prop
  | halted (hs : s.status ≠ .running) (ht : t = s)
  | finished (hs : s.status = .running) (hfin : s.finishedSampled = true) (ht : t = { s with status := .finished })
  | fetchFailed (hs : s.cycleStarts) (hpc : s.accessOk s.pc 4 = false)
      (ht : t = s.beginCycle.raise (.addressing s.pc))
  | decodeFailed (hs : s.cycleStarts) (hpc : s.accessOk s.pc 4 = true) (e : DecodeReject)
      (hdec : decodeWord (s.word32At s.pc.toNat) = .error e)
      (ht : t = s.fetched.raise (.decode (s.word32At s.pc.toNat)))
  | accessFailed (hs : s.cycleStarts) (hpc : s.accessOk s.pc 4 = true) (i : Instr)
      (hdec : decodeWord (s.word32At s.pc.toNat) = .ok i) (addr : Word64) (d : DecoderOutput)
      (ht : t = ((s.fetched.latchDecode d).latchALU addr).raise (.addressing addr))
  | completed (hs : s.cycleStarts) (hpc : s.accessOk s.pc 4 = true) (i : Instr)
      (hdec : decodeWord (s.word32At s.pc.toNat) = .ok i) (h : Completed i s.fetched t)

/-- Every state has a next state, and it is one of the six. -/
theorem step_result (s : State) : ∃ t, step s = .next t ∧ StepResult s t := by
  obtain ⟨hhalt, hstep⟩ | ⟨hrun, hfin, hstep⟩ | ⟨hs, hpc, hstep⟩ | ⟨hs, hpc, e, hdec, hstep⟩ |
    ⟨hs, hpc, i, hdec, hstep⟩ := step_cases s
  · exact ⟨_, hstep, .halted hhalt rfl⟩
  · exact ⟨_, hstep, .finished hrun hfin rfl⟩
  · exact ⟨_, hstep, .fetchFailed hs hpc rfl⟩
  · rw [load_four] at hdec hstep
    exact ⟨_, hstep, .decodeFailed hs hpc e hdec rfl⟩
  · rw [load_four] at hdec hstep
    obtain ⟨t, hex, hres⟩ := exec_result i s.fetched
    obtain ⟨_, -, -, -, hwf⟩ := decodeWord_ok hdec
    refine ⟨t, hstep.trans hex, ?_⟩
    cases hres with
    | reserved hno ht => exact nomatch hwf.symm.trans hno
    | accessFailed _ addr n _ _ d ht => exact .accessFailed hs hpc i hdec addr d ht
    | completed _ h => exact .completed hs hpc i hdec h

theorem stepResult_of_next {s t : State} (h : step s = .next t) : StepResult s t := by
  obtain ⟨u, hu, hres⟩ := step_result s
  obtain rfl := Host.Outcome.next.inj (hu.symm.trans h)
  exact hres

/-- A step that leaves the block running is a completed cycle. -/
theorem completed_of_step_running {s t : State} (h : step s = .next t) (ht : t.status = .running) :
    s.cycleStarts ∧ s.accessOk s.pc 4 = true ∧
      ∃ i, decodeWord (s.word32At s.pc.toNat) = .ok i ∧ Completed i s.fetched t := by
  cases stepResult_of_next h with
  | halted hs hts => exact absurd (hts ▸ ht) hs
  | finished _ _ hts => subst hts; exact nomatch ht
  | fetchFailed _ _ hts => subst hts; exact nomatch ht
  | decodeFailed _ _ _ _ hts => subst hts; exact nomatch ht
  | accessFailed _ _ _ _ _ _ hts => subst hts; exact nomatch ht
  | completed hs hpc i hdec hc => exact ⟨hs, hpc, i, hdec, hc⟩

end Sys2Proof.Machine
end

section
/-! PROOFS. What every instruction and every step keeps: the invariant, the frame, the host's inputs, PC's alignment; and
what follows from it for whole runs (40_cycle_and_datapath.md R124 to R129; 70_reset_and_hazards.md R235). -/

namespace Sys2Proof.Machine

/-! ### The invariant -/

/-- A step that leaves the memory keeps the invariant where its two clauses on `status` hold. -/
theorem RunInvariant.of_mem_same {s t : State} (h : RunInvariant s) (hmem : t.mem = s.mem)
    (hsize : t.memSize = s.memSize) (hrun : t.status = .running → t.cyc.driver = .fetch)
    (hdec : t.status = .failDecode →
      t.cyc.bundle = .undef ∧ t.cyc.opA = none ∧ t.cyc.opB = none ∧ t.cyc.dest = none) : RunInvariant t := by
  obtain ⟨hwf, hbelow, hmin, hmax, -, -⟩ := h
  exact ⟨hmem ▸ hwf, by rw [hmem, hsize]; exact hbelow, hsize ▸ hmin, hsize ▸ hmax, hrun, hdec⟩

theorem MemoryKept.wf {i : Instr} {s t : State} (h : MemoryKept i s t) (hwf : s.mem.wf = true) :
    t.mem.wf = true := by
  obtain hmem | ⟨addr, n, v, -, -, hmem⟩ := h
  · rw [hmem]; exact hwf
  · rw [hmem]; exact Memory.wf_store n _ _ v hwf

theorem MemoryKept.below {i : Instr} {s t : State} (h : MemoryKept i s t)
    (hbelow : s.mem.below s.memSize = true) : t.mem.below s.memSize = true := by
  obtain hmem | ⟨addr, n, v, -, hok, hmem⟩ := h
  · rw [hmem]; exact hbelow
  · obtain ⟨-, hbound⟩ := (s.accessOk_iff addr n).mp hok
    rw [hmem]
    exact Memory.below_store n _ _ v hbound hbelow

theorem Completed.runInvariant {i : Instr} {s t : State} (h : Completed i s.fetched t) (hrun : s.status = .running)
    (hs : RunInvariant s) : RunInvariant t := by
  obtain ⟨hwf, hbelow, hmin, hmax, -, -⟩ := hs
  obtain ⟨-, hstatus, -, -⟩ := h.report
  obtain ⟨hsize, -, -⟩ := h.host
  have hsize : t.memSize = s.memSize := hsize
  have ht : t.status = .running := hstatus.trans hrun
  exact ⟨h.mem.wf hwf, by rw [hsize]; exact h.mem.below hbelow, hsize ▸ hmin, hsize ▸ hmax, fun _ => h.driver,
    fun hfail => nomatch ht.symm.trans hfail⟩

/-- Settles O52, by what the step ended in. -/
theorem stepKeepsTheInvariant : Obligations.StepKeepsTheInvariant := by
  intro s t hs hstep
  cases stepResult_of_next hstep with
  | halted _ ht => subst ht; exact hs
  | finished _ _ ht => subst ht; exact hs.of_mem_same rfl rfl nofun nofun
  | fetchFailed _ _ ht => subst ht; exact hs.of_mem_same rfl rfl nofun nofun
  | decodeFailed _ _ _ _ ht => subst ht; exact hs.of_mem_same rfl rfl nofun fun _ => ⟨rfl, rfl, rfl, rfl⟩
  | accessFailed _ _ _ _ _ _ ht => subst ht; exact hs.of_mem_same rfl rfl nofun nofun
  | completed hcyc _ _ _ hc => exact hc.runInvariant hcyc.1 hs

/-! ### Reserved fields and failed accesses -/

/-- A term with a reserved field has no data access: its offset is missing. -/
theorem dataAccess_eq_none_of_reserved {i : Instr} (s : State) (h : i.wf = false) : dataAccess i s = none := by
  cases i with
  | subImmX | addSregW => rfl
  | ldrUimmW | ldrUimmX | ldrswUimm | strUimmW | strUimmX => exact nomatch h
  | ldrRegW _ _ rm option scaled =>
    simp only [dataAccess, (extendedOffset_eq_none 2 option scaled (s.read64 rm)).mpr h, Option.map_none]
  | ldrRegX _ _ rm option scaled =>
    simp only [dataAccess, (extendedOffset_eq_none 3 option scaled (s.read64 rm)).mpr h, Option.map_none]

/-- Settles O25: with its constraint false the meaning raises DecodeFailure on the state as it is. -/
theorem reservedFieldsRaiseDecodeFailure : Obligations.ReservedFieldsRaiseDecodeFailure := by
  intro i s hwf
  obtain ⟨-, hex⟩ | ⟨hyes, -⟩ := exec_stages i s
  · exact ⟨_, hex, rfl, .raise _ _, rfl, rfl, rfl, rfl⟩
  · exact nomatch hwf.symm.trans hyes

/-- Settles O26: of the three outcomes only the failed access is left. -/
theorem failedAccessIsPrecise : Obligations.FailedAccessIsPrecise := by
  intro i s addr n hacc hno
  rw [← State.accessOk_eq_false_iff] at hno
  obtain ⟨t, hex, hres⟩ := exec_result i s
  cases hres with
  | reserved hwf _ => exact nomatch hacc.symm.trans (dataAccess_eq_none_of_reserved s hwf)
  | completed _ hc => exact nomatch hno.symm.trans (hc.access addr n hacc)
  | accessFailed _ addr' n' hacc' _ d ht =>
    obtain ⟨rfl, rfl⟩ := Prod.mk.inj (Option.some.inj (hacc.symm.trans hacc'))
    subst ht
    exact ⟨_, hex, rfl, rfl, (PreciseStop.executed s d addr).trans (.raise _ _), rfl, rfl⟩

/-! ### Frames (40_cycle_and_datapath.md R127) -/

/-- Bytes outside the instruction's own range read as before. -/
theorem MemoryKept.byteAt {i : Instr} {s t : State} (h : MemoryKept i s t) {a : Nat} (ha : ¬ storesTo i s a) :
    t.byteAt a = s.byteAt a := by
  obtain hmem | ⟨addr, n, v, hrange, -, hmem⟩ := h
  · exact byteAt_congr hmem a
  · rw [State.byteAt, State.byteAt, hmem]
    exact Memory.byte_store_outside n _ _ v a fun hin => ha ⟨addr.toNat, n, hrange, hin⟩

/-- Settles O27: a failure keeps every register and byte, a completed cycle all but its own. -/
theorem everyInstructionKeepsItsFrame : Obligations.EveryInstructionKeepsItsFrame := by
  intro i s t hex
  cases execResult_of_next hex with
  | reserved _ ht =>
    subst ht
    obtain ⟨hregs, -, hbytes, hhost⟩ := PreciseStop.raise s (.decode s.ir)
    exact ⟨fun r _ => hregs r, fun a _ => hbytes a, hhost, rfl⟩
  | accessFailed _ addr _ _ _ d ht =>
    subst ht
    obtain ⟨hregs, -, hbytes, hhost⟩ :=
      (PreciseStop.executed s d addr).trans (.raise _ (.addressing addr))
    exact ⟨fun r _ => hregs r, fun a _ => hbytes a, hhost, rfl⟩
  | completed _ hc =>
    obtain ⟨hir, -, -, -⟩ := hc.report
    exact ⟨hc.regs, fun _ => hc.mem.byteAt, hc.host, hir⟩

/-- Settles O28, by the outcome. -/
theorem pcAdvancesExactlyOnSuccess : Obligations.PcAdvancesExactlyOnSuccess := by
  intro i s t hrun hex
  cases execResult_of_next hex with
  | reserved _ ht => subst ht; exact .inr ⟨rfl, rfl⟩
  | accessFailed _ _ _ _ _ _ ht => subst ht; exact .inr ⟨rfl, rfl⟩
  | completed _ hc =>
    obtain ⟨-, hstatus, haddr, hsignal⟩ := hc.report
    exact .inl ⟨hstatus.trans hrun, hc.pc, haddr, hsignal⟩

theorem read64_fetched (s : State) (r : Reg) : s.fetched.read64 r = s.read64 r := by simp

/-- The bytes an instruction stores to depend on the registers only. -/
theorem storesTo_congr {s t : State} (h : RegsSame s t) (i : Instr) (a : Nat) : storesTo i t a ↔ storesTo i s a := by
  cases i <;> simp only [storesTo, storeRange, h _]

/-- Settles O35: a step that leaves the block running is a completed cycle of the fetched word's instruction. -/
theorem successfulStepKeepsItsFrame : Obligations.SuccessfulStepKeepsItsFrame := by
  intro s t _ hstep ht
  obtain ⟨-, -, i, hdec, hc⟩ := completed_of_step_running hstep ht
  obtain ⟨hir, -, haddr, hsignal⟩ := hc.report
  refine ⟨i, hdec, hir, hc.pc, fun r hr => (hc.regs r hr).trans (read64_fetched s r), fun a ha => ?_, haddr, hsignal,
    hc.host, hc.driver⟩
  exact hc.mem.byteAt fun hst => ha ((storesTo_congr (read64_fetched s) i a).mp hst)

/-! ### What no step does -/

/-- Settles O12: a cycle can fail at the fetch, at decode and at the data access only. -/
theorem noCycleEndsInExecControlFailure : Obligations.NoCycleEndsInExecControlFailure := by
  intro s t hrun hstep
  cases stepResult_of_next hstep with
  | halted hs _ => exact absurd hrun hs
  | finished _ _ ht => subst ht; exact nofun
  | fetchFailed _ _ ht => subst ht; exact nofun
  | decodeFailed _ _ _ _ ht => subst ht; exact nofun
  | accessFailed _ _ _ _ _ _ ht => subst ht; exact nofun
  | completed _ _ _ _ hc =>
    obtain ⟨-, hstatus, -, -⟩ := hc.report
    have ht : t.status = .running := hstatus.trans hrun
    simp [ht]

/-- Settles O38. -/
theorem everyStateHasANextState : Obligations.EveryStateHasANextState := by
  intro s
  obtain ⟨t, hstep, -⟩ := step_result s
  exact ⟨t, hstep⟩

/-! ### Runs of many steps -/

/-- A run of one step more is the step and the rest of the run. -/
theorem exists_step_of_run_succ {n : Nat} {s u : State} (h : Sys2Proof.core.run (n + 1) s = .next u) :
    ∃ t, step s = .next t ∧ Sys2Proof.core.run n t = .next u := by
  obtain ⟨t, hstep, -⟩ := step_result s
  exact ⟨t, hstep, (run_succ_of_next hstep n).symm.trans h⟩

/-- A relation that is reflexive and transitive and holds across every step holds across every run. -/
theorem run_induction {R : State → State → Prop} (hrefl : ∀ s, R s s) (htrans : ∀ {s t u}, R s t → R t u → R s u)
    (hstep : ∀ {s t}, step s = .next t → R s t) (n : Nat) :
    ∀ {s t}, Sys2Proof.core.run n s = .next t → R s t := by
  induction n with
  | zero =>
    intro s t h
    obtain rfl : s = t := Host.Outcome.next.inj h
    exact hrefl s
  | succ n ih =>
    intro s u h
    obtain ⟨t, hst, hrun⟩ := exists_step_of_run_succ h
    exact htrans (hstep hst) (ih hrun)

theorem step_hostSame {s t : State} (h : step s = .next t) : HostSame s t := by
  cases stepResult_of_next h with
  | halted _ ht => subst ht; exact .refl _
  | finished _ _ ht => subst ht; exact ⟨rfl, rfl, rfl⟩
  | fetchFailed _ _ ht => subst ht; exact ⟨rfl, rfl, rfl⟩
  | decodeFailed _ _ _ _ ht => subst ht; exact ⟨rfl, rfl, rfl⟩
  | accessFailed _ _ _ _ _ _ ht => subst ht; exact ⟨rfl, rfl, rfl⟩
  | completed _ _ _ _ hc => exact hc.host

/-- Settles O53. -/
theorem runsKeepTheHostInputs : Obligations.RunsKeepTheHostInputs :=
  fun n _ _ => run_induction HostSame.refl HostSame.trans step_hostSame n

/-- PC stays, or rises by 4 modulo 2^64. -/
theorem step_pc {s t : State} (h : step s = .next t) : t.pc = s.pc ∨ t.pc = s.pc + 4#64 := by
  cases stepResult_of_next h with
  | halted _ ht => subst ht; exact .inl rfl
  | finished _ _ ht => subst ht; exact .inl rfl
  | fetchFailed _ _ ht => subst ht; exact .inl rfl
  | decodeFailed _ _ _ _ ht => subst ht; exact .inl rfl
  | accessFailed _ _ _ _ _ _ ht => subst ht; exact .inl rfl
  | completed _ _ _ _ hc => exact .inr hc.pc

/-- 4 divides 2^64, so that the wrap of PC keeps its alignment. -/
theorem add_four_mod_four (pc : Word64) : (pc + 4#64).toNat % 4 = pc.toNat % 4 := by
  rw [BitVec.toNat_add, BitVec.toNat_ofNat]
  omega

theorem step_pc_mod_four {s t : State} (h : step s = .next t) : t.pc.toNat % 4 = s.pc.toNat % 4 := by
  obtain hpc | hpc := step_pc h
  · rw [hpc]
  · rw [hpc, add_four_mod_four]

/-- Settles O55. -/
theorem pcAlignmentNeverChanges : Obligations.PcAlignmentNeverChanges :=
  fun n _ _ => run_induction (R := fun s t => t.pc.toNat % 4 = s.pc.toNat % 4) (fun _ => rfl)
    (fun hst htu => htu.trans hst) step_pc_mod_four n

/-- The cycles that are left after a completed one: `floor((MEM_SIZE - PC) / 4)` has gone down. -/
theorem cycles_left_lt {s t : State} (hsize : s.memSize ≤ Config.maxMemSize) (hstep : step s = .next t)
    (ht : t.status = .running) : (t.memSize - t.pc.toNat) / 4 < (s.memSize - s.pc.toNat) / 4 := by
  obtain ⟨-, hpc, i, -, hc⟩ := completed_of_step_running hstep ht
  obtain ⟨-, hbound⟩ := (s.accessOk_iff s.pc 4).mp hpc
  obtain ⟨hsame, -, -⟩ := step_hostSame hstep
  have hnext : t.pc.toNat = s.pc.toNat + 4 := by
    have hadd : t.pc = s.pc + 4#64 := hc.pc
    rw [hadd, BitVec.toNat_add, BitVec.toNat_ofNat]
    simp only [Config.maxMemSize] at hsize
    omega
  rw [hsame, hnext]
  omega

theorem run_ends (n : Nat) : ∀ s : State, s.memSize ≤ Config.maxMemSize → (s.memSize - s.pc.toNat) / 4 < n →
    ∃ t, Sys2Proof.core.run n s = .next t ∧ t.status ≠ .running := by
  induction n with
  | zero => exact fun _ _ h => absurd h (Nat.not_lt_zero _)
  | succ n ih =>
    intro s hsize hn
    obtain ⟨t, hstep, -⟩ := step_result s
    rw [run_succ_of_next hstep]
    by_cases ht : t.status = .running
    · obtain ⟨hsame, -, -⟩ := step_hostSame hstep
      have hless := cycles_left_lt hsize hstep ht
      exact ih t (hsame ▸ hsize) (by omega)
    · exact ⟨t, run_halted ht n, ht⟩

/-- Settles O54, by induction on the number of cycles that are left. -/
theorem everyRunEnds : Obligations.EveryRunEnds := fun s hsize => run_ends _ s hsize (Nat.lt_succ_self _)

end Sys2Proof.Machine
end

section
/-! PROOFS. The operand forms and the ALU as integers (30_encoding.md R87 to R89; 40_cycle_and_datapath.md R117). -/

namespace Sys2Proof.Machine

/-! ### Execute (R117) -/

/-- Settles O10: the two ALU operations are the bit vectors' own, which wrap modulo 2^64. -/
theorem executeAddsSubtractsOrFails : Obligations.ExecuteAddsSubtractsOrFails := by
  intro mo wb m op a b
  refine ⟨?_, ?_, rfl, rfl⟩
  · rw [executeStage_int, alu, BitVec.add_def]
  · have hle := b.isLt
    rw [executeStage_int, alu, BitVec.sub_def, Nat.add_comm (2 ^ 64 - b.toNat), ← Nat.add_sub_assoc hle.le]

/-- Settles O11: Execute fails on the undefined bundle, so no later stage runs. -/
theorem undefinedBundleReachesNothing : Obligations.UndefinedBundleReachesNothing := by
  intro a b dest s
  refine ⟨(s.latchDecode ⟨Bundle.undef, a, b, dest⟩).raise (.execControl .aluOp), rfl, rfl, rfl, rfl, rfl, ?_⟩
  exact .of_same rfl rfl rfl rfl ⟨rfl, rfl, rfl⟩

/-! ### Scaled immediates (30_encoding.md R87) -/

/-- `imm12` is below 2^12: a scale of up to 3 loses no bit. -/
theorem toNat_immOperand (scale : Nat) (hscale : scale ≤ 3) (imm12 : BitVec 12) :
    (immOperand scale imm12).toNat = 2 ^ scale * imm12.toNat := by
  have himm := imm12.isLt
  have hpow : 2 ^ scale ≤ 2 ^ 3 := Nat.pow_le_pow_right (by omega) hscale
  have hsmall : imm12.toNat * 2 ^ scale < 2 ^ 64 :=
    calc imm12.toNat * 2 ^ scale ≤ 2 ^ 12 * 2 ^ 3 := Nat.mul_le_mul himm.le hpow
      _ < 2 ^ 64 := by decide
  rw [immOperand, BitVec.toNat_shiftLeft, BitVec.toNat_setWidth, Nat.shiftLeft_eq, Nat.mod_eq_of_lt (a := imm12.toNat)
    (by omega), Nat.mod_eq_of_lt hsmall, Nat.mul_comm]

/-- Settles O13. -/
theorem immediateOperandValues : Obligations.ImmediateOperandValues := fun imm12 =>
  ⟨(toNat_immOperand 0 (by omega) imm12).trans (Nat.one_mul _), toNat_immOperand 2 (by omega) imm12,
    toNat_immOperand 3 (by omega) imm12⟩

/-! ### Shifts as integer operations (00_scope.md R7) -/

theorem shiftLeft_eq_ofNat {w : Nat} (v : BitVec w) (k : Nat) : v <<< k = BitVec.ofNat w (v.toNat * 2 ^ k) := by
  apply BitVec.eq_of_toNat_eq
  rw [BitVec.toNat_shiftLeft, BitVec.toNat_ofNat, Nat.shiftLeft_eq]

theorem ushiftRight_eq_ofNat {w : Nat} (v : BitVec w) (k : Nat) : v >>> k = BitVec.ofNat w (v.toNat / 2 ^ k) := by
  apply BitVec.eq_of_toNat_eq
  rw [BitVec.toNat_ushiftRight, BitVec.toNat_ofNat, Nat.shiftRight_eq_div_pow,
    Nat.mod_eq_of_lt (lt_of_le_of_lt (Nat.div_le_self _ _) v.isLt)]

theorem sshiftRight_eq_ofInt {w : Nat} (v : BitVec w) (k : Nat) :
    v.sshiftRight k = BitVec.ofInt w (v.toInt / 2 ^ k) := by
  rw [BitVec.sshiftRight, Int.shiftRight_eq_div_pow]
  norm_num

/-- A left shift of a value given as an integer. -/
theorem ofInt_shiftLeft (w : Nat) (z : Int) (k : Nat) :
    BitVec.ofInt w z <<< k = BitVec.ofInt w (z * 2 ^ k) := by
  have hpow : BitVec.ofInt w (2 ^ k) = BitVec.twoPow w k := by
    apply BitVec.eq_of_toNat_eq
    rw [BitVec.toNat_twoPow, ← BitVec.toNat_ofNat, ← BitVec.ofInt_natCast, Nat.cast_pow, Nat.cast_ofNat]
  rw [BitVec.shiftLeft_eq_mul_twoPow, BitVec.ofInt_mul, hpow]

/-! ### The shifted register (30_encoding.md R88) -/

/-- Where `imm6` is allowed, the selected shift is applied by `imm6`. -/
theorem shiftedOperand_eq_some {shift : BitVec 2} {k : ShiftKind} {imm6 : BitVec 6} (hk : shiftKind shift = some k)
    (h : imm6.toNat < 32) (v : Word32) : shiftedOperand shift imm6 v = some (applyShift k v imm6.toNat) := by
  have hbit : imm6.getLsbD 5 = false := by
    simpa [amountAllowed] using (amountAllowed_iff imm6).mpr h
  simp only [shiftedOperand, hk, hbit, Bool.false_eq_true, if_false]

/-- Settles O14: the allowed fields by the kind of shift, the reserved ones by the constraint they break. -/
theorem shiftedOperandValues : Obligations.ShiftedOperandValues := by
  intro v imm6
  refine ⟨fun h => ⟨?_, ?_, ?_⟩, rfl, fun h shift => ?_⟩
  · rw [shiftedOperand_eq_some (k := .lsl) rfl h, applyShift, shiftLeft_eq_ofNat]
  · rw [shiftedOperand_eq_some (k := .lsr) rfl h, applyShift, ushiftRight_eq_ofNat]
  · rw [shiftedOperand_eq_some (k := .asr) rfl h, applyShift, sshiftRight_eq_ofInt]
  · have hamount : amountAllowed imm6 = false := by
      rw [← Bool.not_eq_true, amountAllowed_iff]
      exact Nat.not_lt.mpr h
    rw [shiftedOperand_eq_none, hamount, Bool.and_false]

/-! ### The extended register (30_encoding.md R89) -/

/-- The scale as a factor: `2^size` when `S = 1`, else 1. -/
theorem scale_factor (scaled : Bool) (size : Nat) :
    2 ^ (if scaled then size else 0) = if scaled then 2 ^ size else 1 := by
  cases scaled <;> rfl

/-- A scaled offset as an integer, for the whole index. -/
theorem scaled_eq_ofNat (scaled : Bool) (size : Nat) (m : Word64) :
    m <<< (if scaled then size else 0) = BitVec.ofNat 64 (m.toNat * if scaled then 2 ^ size else 1) := by
  rw [shiftLeft_eq_ofNat, scale_factor]

/-- Settles O15, by the kind of extension. -/
theorem extendedOffsetValues : Obligations.ExtendedOffsetValues := by
  intro size scaled m
  refine ⟨?_, ?_, ?_, ?_, fun option h => (extendedOffset_eq_none size option scaled m).mpr h⟩
  · have hlow : (applyExtend .uxtw m).toNat = m.toNat % 2 ^ 32 := by
      simp only [applyExtend, BitVec.toNat_setWidth]
      omega
    exact congrArg some ((scaled_eq_ofNat scaled size _).trans (by rw [hlow]))
  · exact congrArg some (scaled_eq_ofNat scaled size m)
  · have hext : ((m.setWidth 32).signExtend 64 : Word64) = BitVec.ofInt 64 (m.setWidth 32).toInt := by
      rw [BitVec.signExtend]
    refine congrArg some ?_
    rw [applyExtend, hext, ofInt_shiftLeft]
    cases scaled <;> simp
  · exact congrArg some (scaled_eq_ofNat scaled size m)

end Sys2Proof.Machine
end

section
/-! PROOFS. Each instruction's result, completion and frame (41_data_processing.md R150, R151; 42_load_store.md R171 to
R177), from what the shared stages give for its shape of bundle. -/

namespace Sys2Proof.Machine

/-! ### Data processing (41_data_processing.md) -/

/-- 30_encoding.md R87, scale 0: the immediate itself. -/
theorem immOperand_zero (imm12 : BitVec 12) : immOperand 0 imm12 = BitVec.ofNat 64 imm12.toNat := by
  apply BitVec.eq_of_toNat_eq
  rw [toNat_immOperand 0 (by omega), BitVec.toNat_ofNat]
  omega

/-- Settles O16. -/
theorem subImmXResult : Obligations.SubImmXResult := by
  intro rd rn imm12 s
  rw [← immOperand_zero]
  obtain ⟨t, hrun, hrd, hregs, hpc, hmem, hhost, hreport, hcyc⟩ :=
    runStages_alu (op := .sub) (a := s.read64 rn) (b := immOperand 0 imm12) rfl rd .w64 s
  exact ⟨t, hrun, hrd, hregs, hpc, byteAt_congr hmem, hhost, hreport, hcyc⟩

/-- The 64-bit sum of zero-extended words has their 32-bit sum as its low half (40_cycle_and_datapath.md R117;
decision D26). -/
theorem written_w32_add (u v : Word32) :
    Width.w32.written (u.setWidth 64 + v.setWidth 64) = (u + v).setWidth 64 := by
  have hlow : (u.setWidth 64 + v.setWidth 64 : Word64).setWidth 32 = u + v := by
    rw [BitVec.setWidth_add _ _ (by omega)]
    simp
  rw [Width.written, hlow]

/-- Settles O17. -/
theorem addSregWResult : Obligations.AddSregWResult := by
  intro rd rn rm shift imm6 v s hv
  obtain ⟨t, hrun, hrd, hregs, hpc, hmem, hhost, hreport, hcyc⟩ :=
    runStages_alu (op := .add) (a := (s.read32 rn).setWidth 64) (b := v.setWidth 64) rfl rd .w32 s
  have hexec : exec (.addSregW rd rn rm shift imm6) s = .next t := by simp only [exec, execAddSregW, hv, hrun]
  exact ⟨t, hexec, hrd.trans (written_w32_add _ v), hregs, hpc, byteAt_congr hmem, hhost, hreport, hcyc⟩

/-- Settles O59: the two states' low halves give the same shifted operand and the same sum. -/
theorem addIgnoresTheUpperHalves : Obligations.AddIgnoresTheUpperHalves := by
  intro rd rn rm shift imm6 s s' hshift hamount hrn hrm
  cases hv : shiftedOperand shift imm6 (s.read32 rm) with
  | none =>
    rw [shiftedOperand_eq_none, hshift, hamount] at hv
    exact nomatch hv
  | some v =>
    obtain ⟨t, hexec, hrd, -⟩ := addSregWResult rd rn rm shift imm6 v s hv
    obtain ⟨t', hexec', hrd', -⟩ := addSregWResult rd rn rm shift imm6 v s' (hrm ▸ hv)
    exact ⟨t, t', hexec, hexec', by rw [hrd, hrd', hrn]⟩

/-! ### Loads (42_load_store.md R171, R172, R173, R176, R177) -/

/-- A loaded word, sign-extended into MDR (decision D3), written through a 32-bit reference. -/
theorem written_w32_signExtend (v : Word32) : Width.w32.written (v.signExtend 64) = v.setWidth 64 := by
  rw [Width.written, setWidth_signExtend_word]

/-- A 4-byte load at an address that passes the check: the word there, as the destination's width takes it. -/
theorem load32_result {a b addr : Word64} (rt : Reg) (w : Width) {s : State} (haddr : addr = a + b)
    (haligned : addr.toNat % 4 = 0) (hbound : addr.toNat + 4 ≤ s.memSize) :
    ∃ t, runStages ⟨⟨.add, .read32, .registerWrite, true, false⟩, a, b, ⟨rt, w⟩⟩ s = .next t ∧
      t.read64 rt = w.written ((s.word32At addr.toNat).signExtend 64) ∧
      RegsSameBut rt s t ∧ t.pc = s.pc + 4#64 ∧ BytesSame s t ∧ HostSame s t ∧ ReportSame s t ∧
      t.cyc = ⟨.fetch, ⟨.add, .read32, .registerWrite, true, false⟩, some a, some b, some ⟨rt, w⟩, some addr,
        some ((s.word32At addr.toNat).signExtend 64)⟩ := by
  subst haddr
  obtain ⟨t, hrun, hrt, hregs, hpc, hmem, hhost, hreport, hcyc⟩ :=
    runStages_load32 rt w s ((s.accessOk_iff _ 4).mpr ⟨haligned, hbound⟩)
  rw [load_four] at hrt hcyc
  exact ⟨t, hrun, hrt, hregs, hpc, byteAt_congr hmem, hhost, hreport, hcyc⟩

/-- An 8-byte load at an address that passes the check: the double word there, whole. -/
theorem load64_result {a b addr : Word64} (rt : Reg) {s : State} (haddr : addr = a + b)
    (haligned : addr.toNat % 8 = 0) (hbound : addr.toNat + 8 ≤ s.memSize) :
    ∃ t, runStages ⟨⟨.add, .read64, .registerWrite, true, false⟩, a, b, ⟨rt, .w64⟩⟩ s = .next t ∧
      t.read64 rt = s.word64At addr.toNat ∧
      RegsSameBut rt s t ∧ t.pc = s.pc + 4#64 ∧ BytesSame s t ∧ HostSame s t ∧ ReportSame s t ∧
      t.cyc = ⟨.fetch, ⟨.add, .read64, .registerWrite, true, false⟩, some a, some b, some ⟨rt, .w64⟩, some addr,
        some (s.word64At addr.toNat)⟩ := by
  subst haddr
  obtain ⟨t, hrun, hrt, hregs, hpc, hmem, hhost, hreport, hcyc⟩ :=
    runStages_load64 rt .w64 s ((s.accessOk_iff _ 8).mpr ⟨haligned, hbound⟩)
  rw [load_eight] at hrt hcyc
  exact ⟨t, hrun, hrt, hregs, hpc, byteAt_congr hmem, hhost, hreport, hcyc⟩

/-- Settles O18. -/
theorem ldrUimmWResult : Obligations.LdrUimmWResult := by
  intro rt rn imm12 addr s haddr haligned hbound
  obtain ⟨t, hrun, hrt, hframe⟩ := load32_result rt .w32 haddr haligned hbound
  exact ⟨t, hrun, hrt.trans (written_w32_signExtend _), hframe⟩

/-- Settles O19. -/
theorem ldrUimmXResult : Obligations.LdrUimmXResult :=
  fun rt _ _ _ _ haddr haligned hbound => load64_result rt haddr haligned hbound

/-- Settles O20: a 64-bit destination keeps MDR's sign extension. -/
theorem ldrswUimmResult : Obligations.LdrswUimmResult :=
  fun rt _ _ _ _ haddr haligned hbound => load32_result rt .w64 haddr haligned hbound

/-- Settles O23. -/
theorem ldrRegWResult : Obligations.LdrRegWResult := by
  intro rt rn rm option scaled off addr s hoff haddr haligned hbound
  obtain ⟨t, hrun, hrt, hframe⟩ := load32_result rt .w32 haddr haligned hbound
  have hexec : exec (.ldrRegW rt rn rm option scaled) s = .next t := by simp only [exec, execLdrRegW, hoff, hrun]
  exact ⟨t, hexec, hrt.trans (written_w32_signExtend _), hframe⟩

/-- Settles O24. -/
theorem ldrRegXResult : Obligations.LdrRegXResult := by
  intro rt rn rm option scaled off addr s hoff haddr haligned hbound
  obtain ⟨t, hrun, hresult⟩ := load64_result rt haddr haligned hbound
  have hexec : exec (.ldrRegX rt rn rm option scaled) s = .next t := by simp only [exec, execLdrRegX, hoff, hrun]
  exact ⟨t, hexec, hresult⟩

/-! ### Stores (42_load_store.md R174, R175) -/

theorem bytesSameOutside_of_store {s t : State} {lo n : Nat} {v : BitVec (8 * n)} (h : t.mem = s.mem.store lo n v) :
    BytesSameOutside lo n s t := by
  intro a ha
  rw [State.byteAt, State.byteAt, h]
  exact Memory.byte_store_outside n _ _ v a ha

theorem word32At_of_store {s t : State} {lo : Nat} {v : Word32} (h : t.mem = s.mem.store lo 4 v) :
    t.word32At lo = v := by
  rw [← load_four, h]
  exact Memory.load_store_same 4 _ _ v

theorem word64At_of_store {s t : State} {lo : Nat} {v : Word64} (h : t.mem = s.mem.store lo 8 v) :
    t.word64At lo = v := by
  rw [← load_eight, h]
  exact Memory.load_store_same 8 _ _ v

/-- Settles O21. -/
theorem strUimmWResult : Obligations.StrUimmWResult := by
  intro rt rn imm12 addr s haddr haligned hbound
  subst haddr
  obtain ⟨t, hrun, hmem, hregs, hpc, hhost, hreport, hcyc⟩ :=
    runStages_store32 rt s ((s.accessOk_iff _ 4).mpr ⟨haligned, hbound⟩)
  exact ⟨t, hrun, word32At_of_store hmem, bytesSameOutside_of_store hmem, hregs, hpc, hhost, hreport, hcyc⟩

/-- Settles O22. -/
theorem strUimmXResult : Obligations.StrUimmXResult := by
  intro rt rn imm12 addr s haddr haligned hbound
  subst haddr
  obtain ⟨t, hrun, hmem, hregs, hpc, hhost, hreport, hcyc⟩ :=
    runStages_store64 rt s ((s.accessOk_iff _ 8).mpr ⟨haligned, hbound⟩)
  exact ⟨t, hrun, word64At_of_store hmem, bytesSameOutside_of_store hmem, hregs, hpc, hhost, hreport, hcyc⟩

/-- Settles O43: the store keeps the base register and MEM_SIZE, so the load reads the double word just stored. -/
theorem storeThenLoadMovesTheRegister : Obligations.StoreThenLoadMovesTheRegister := by
  intro rs rt rn imm12 s haligned hbound
  obtain ⟨t, hstore, hword, -, hregs, -, ⟨hsize, -, -⟩, -⟩ := strUimmXResult rs rn imm12 _ s rfl haligned hbound
  obtain ⟨u, hload, hrt, -⟩ := ldrUimmXResult rt rn imm12 (s.read64 rn + immOperand 3 imm12) t
    (by rw [hregs rn]) haligned (hsize ▸ hbound)
  exact ⟨t, u, hstore, hload, hrt.trans hword⟩

/-! ### Accesses of both widths to the same bytes (20_memory.md R58) -/

theorem extractLsb'_low_word64At (s : State) (a : Nat) : (s.word64At a).extractLsb' 0 32 = s.word32At a :=
  BitVec.extractLsb'_append_eq_right

theorem extractLsb'_high_word64At (s : State) (a : Nat) : (s.word64At a).extractLsb' 32 32 = s.word32At (a + 4) :=
  BitVec.extractLsb'_append_eq_left

theorem memRead_four {s : State} {addr : Word64} (h : s.accessOk addr 4 = true) :
    s.memRead addr 4 = .ok (s.word32At addr.toNat) := by rw [State.memRead_ok h, load_four]

theorem memRead_eight {s : State} {addr : Word64} (h : s.accessOk addr 8 = true) :
    s.memRead addr 8 = .ok (s.word64At addr.toNat) := by rw [State.memRead_ok h, load_eight]

/-- A write that passes the check stores its bytes and leaves MEM_SIZE. -/
theorem exists_memWrite {s : State} {addr : Word64} {n : Nat} (v : BitVec (8 * n)) (h : s.accessOk addr n = true) :
    ∃ t, s.memWrite addr n v = .ok t ∧ t.mem = s.mem.store addr.toNat n v ∧ t.memSize = s.memSize :=
  ⟨_, State.memWrite_ok v h, rfl, rfl⟩

/-- A store past the word at `a` leaves it. -/
theorem word32At_of_store_above {s t : State} {a lo n : Nat} {v : BitVec (8 * n)} (h : t.mem = s.mem.store lo n v)
    (hlo : a + 4 ≤ lo) : t.word32At a = s.word32At a := by
  rw [← load_four, ← load_four, h]
  exact Memory.load_congr 4 _ _ a fun k hk => Memory.byte_store_outside n _ _ v (a + k) (by omega)

/-- An 8-aligned address has room for the second word before 2^64: no wrap. -/
theorem toNat_add_four {a : Word64} (h : a.toNat % 8 = 0) : (a + 4#64).toNat = a.toNat + 4 := by
  have hlt := a.isLt
  rw [BitVec.toNat_add, BitVec.toNat_ofNat]
  omega

/-- Settles O42: a double word is its two words, and each 4-byte access is to one of them. -/
theorem mixedWidthAccessesAgree : Obligations.MixedWidthAccessesAgree := by
  intro s a haligned hbound
  have hnext := toNat_add_four haligned
  have hok8 : s.accessOk a 8 = true := (s.accessOk_iff a 8).mpr ⟨haligned, hbound⟩
  have hok4 : s.accessOk a 4 = true := (s.accessOk_iff a 4).mpr ⟨by omega, by omega⟩
  have hok4' : s.accessOk (a + 4#64) 4 = true := (s.accessOk_iff _ 4).mpr ⟨by omega, by omega⟩
  constructor
  · intro v
    obtain ⟨t, hwrite, hmem, hsize⟩ := exists_memWrite v hok8
    have hword := word64At_of_store hmem
    refine ⟨t, hwrite, ?_, ?_⟩
    · rw [memRead_four ((accessOk_congr hsize a 4).trans hok4), ← extractLsb'_low_word64At, hword]
    · rw [memRead_four ((accessOk_congr hsize _ 4).trans hok4'), hnext, ← extractLsb'_high_word64At, hword]
  · intro u w
    obtain ⟨t, hwrite, hmem, hsize⟩ := exists_memWrite u hok4
    obtain ⟨t', hwrite', hmem', hsize'⟩ := exists_memWrite w ((accessOk_congr hsize _ 4).trans hok4')
    rw [hnext] at hmem'
    have hlow : t'.word32At a.toNat = u :=
      (word32At_of_store_above hmem' le_rfl).trans (word32At_of_store hmem)
    have hhigh : t'.word32At (a.toNat + 4) = w := word32At_of_store hmem'
    refine ⟨t, t', hwrite, hwrite', ?_⟩
    rw [memRead_eight ((accessOk_congr (hsize'.trans hsize) a 8).trans hok8), State.word64At, hlow, hhigh]

end Sys2Proof.Machine
end

section
/-! PROOFS. The step as one cycle: when it starts, what it fetches and runs, and that the transients, IR, `fault_addr` and
the failed signal of the cycles before never matter (40_cycle_and_datapath.md R112 to R114, R126; 10_state.md R41). -/

namespace Sys2Proof.Machine

/-! ### What a starting cycle does (R112, R114, R126) -/

theorem step_of_bad_pc {s : State} (hs : s.cycleStarts) (h : s.accessOk s.pc 4 = false) :
    step s = .next (s.beginCycle.raise (.addressing s.pc)) := by
  obtain ⟨-, hstep⟩ | ⟨hpc, -⟩ | ⟨hpc, -⟩ := cycle_cases hs
  · exact hstep
  · exact nomatch h.symm.trans hpc
  · exact nomatch h.symm.trans hpc

theorem step_of_decode {s : State} {i : Instr} (hs : s.cycleStarts) (hok : s.accessOk s.pc 4 = true)
    (hdec : decodeWord (s.word32At s.pc.toNat) = .ok i) : step s = exec i s.fetched := by
  obtain ⟨hpc, -⟩ | ⟨-, e, herr, -⟩ | ⟨-, j, hj, hstep⟩ := cycle_cases hs
  · exact nomatch hok.symm.trans hpc
  · exact nomatch hdec.symm.trans herr
  · obtain rfl := Except.ok.inj (hdec.symm.trans hj)
    exact hstep

theorem step_of_decode_error {s : State} {e : DecodeReject} (hs : s.cycleStarts) (hok : s.accessOk s.pc 4 = true)
    (hdec : decodeWord (s.word32At s.pc.toNat) = .error e) :
    step s = .next (s.fetched.raise (.decode (s.word32At s.pc.toNat))) := by
  obtain ⟨hpc, -⟩ | ⟨-, -, -, hstep⟩ | ⟨-, i, hi, -⟩ := cycle_cases hs
  · exact nomatch hok.symm.trans hpc
  · exact hstep
  · exact nomatch hdec.symm.trans hi

/-- After a cycle whose fetch went through, IR is the word at PC, whether the cycle completed or failed. -/
theorem ir_of_step {s t : State} (hs : s.cycleStarts) (hok : s.accessOk s.pc 4 = true) (h : step s = .next t) :
    t.ir = s.word32At s.pc.toNat := by
  cases stepResult_of_next h with
  | halted hno _ => exact absurd hs.1 hno
  | finished _ hfin _ => exact nomatch hfin.symm.trans hs.2
  | fetchFailed _ hpc _ => exact nomatch hok.symm.trans hpc
  | decodeFailed _ _ _ _ ht => subst ht; rfl
  | accessFailed _ _ _ _ _ _ ht => subst ht; rfl
  | completed _ _ _ _ hc =>
    obtain ⟨hir, -, -, -⟩ := hc.report
    exact hir

/-- Settles O29. -/
theorem stepRunsTheDecodedInstruction : Obligations.StepRunsTheDecodedInstruction :=
  fun s _ hs haligned hbound hdec => step_of_decode hs ((s.accessOk_iff s.pc 4).mpr ⟨haligned, hbound⟩) hdec

/-- The table's word, laid out as bytes and put together again, is what the decoder reads. -/
theorem decodeWord_tableWord {nbits w : Nat} {i : Instr} (h : decodeTableWord nbits w = some i) :
    decodeWord (tableWord nbits w) = .ok i := by
  simp only [decodeTableWord, bytesOfWord, decodeBytes, word_of_bytes] at h
  cases hdec : decodeWord (tableWord nbits w) with
  | error e => simp [hdec] at h
  | ok j => simpa [hdec] using h

/-- Settles O30: the placed word is the word at PC, and the placing leaves the rest. -/
theorem placedWordRuns : Obligations.PlacedWordRuns := by
  intro s nbits w i hs haligned hbound htable
  have hword : (s.withFetchWord nbits w).word32At (s.withFetchWord nbits w).pc.toNat = tableWord nbits w :=
    word32At_of_store (s := s) rfl
  have hstep := stepRunsTheDecodedInstruction (s.withFetchWord nbits w) i hs haligned hbound
    ((congrArg decodeWord hword).trans (decodeWord_tableWord htable))
  rwa [hword] at hstep

/-- Settles O31. -/
theorem failedFetchStopsTheRun : Obligations.FailedFetchStopsTheRun := by
  intro s hs hno
  exact ⟨_, step_of_bad_pc hs ((s.accessOk_eq_false_iff s.pc 4).mpr hno), rfl, rfl, rfl,
    (PreciseStop.beginCycle s).trans (.raise _ _), rfl⟩

theorem finishedSampled_iff (s : State) :
    s.finishedSampled = true ↔ s.finishedIn = true ∨ s.stopPc = some s.pc := by
  simp [State.finishedSampled]

theorem step_of_finished {s : State} (hrun : s.status = .running) (hfin : s.finishedSampled = true) :
    step s = .next { s with status := .finished } := by
  simp [step, driveCycle, hrun, hfin]

/-- Settles O37: the test of `finished` comes before the fetch. -/
theorem finishedStopsBeforeTheFetch : Obligations.FinishedStopsBeforeTheFetch :=
  fun s hrun hfin => step_of_finished hrun ((finishedSampled_iff s).mpr hfin)

/-- Settles O44: the store completes and leaves the block running with its word at the next PC, which is aligned and in
memory. -/
theorem storeIsSeenByTheNextFetch : Obligations.StoreIsSeenByTheNextFetch := by
  intro rt rn imm12 s hs haligned hbound hdec haddr hnext hstop
  have hok : s.accessOk s.pc 4 = true := (s.accessOk_iff s.pc 4).mpr ⟨haligned, hbound⟩
  have haligned' : (s.pc + 4#64).toNat % 4 = 0 := (add_four_mod_four s.pc).trans haligned
  obtain ⟨t, hexec, hword, -, -, hpc, ⟨hsize, hfin, hstopPc⟩, ⟨-, hstatus, -, -⟩, -⟩ :=
    strUimmWResult rt rn imm12 (s.pc + 4#64) s.fetched (by rw [read64_fetched, haddr]) haligned' hnext
  have hpc : t.pc = s.pc + 4#64 := hpc
  have ht : t.cycleStarts := by
    refine ⟨hstatus.trans hs.1, ?_⟩
    rw [← Bool.not_eq_true, finishedSampled_iff, hfin, hstopPc, hpc, not_or]
    have hnot : ¬ (s.finishedIn = true ∨ s.stopPc = some s.pc) := by
      rw [← finishedSampled_iff, hs.2]
      exact Bool.false_ne_true
    exact ⟨fun h => hnot (.inl h), hstop⟩
  have hok' : t.accessOk t.pc 4 = true := by
    rw [State.accessOk_iff, hpc, hsize]
    exact ⟨haligned', hnext⟩
  obtain ⟨u, hu, -⟩ := step_result t
  refine ⟨t, u, (step_of_decode hs hok hdec).trans hexec, hu, ?_⟩
  rw [ir_of_step ht hok' hu, hpc, hword]
  rfl

/-! ### What earlier cycles leave never matters (10_state.md R41, R43) -/

/-- Settles O58: a starting cycle begins with fresh transients and reads none of the old ones before. -/
theorem transientsAreRecreated : Obligations.TransientsAreRecreated := by
  intro s u hs
  have hs' : ({ s with cyc := u } : State).cycleStarts := hs
  obtain ⟨hpc, hstep⟩ | ⟨hpc, e, hdec, hstep⟩ | ⟨hpc, i, hdec, hstep⟩ := cycle_cases hs
  · exact (step_of_bad_pc hs' hpc).trans hstep.symm
  · exact (step_of_decode_error hs' hpc hdec).trans hstep.symm
  · exact (step_of_decode hs' hpc hdec).trans hstep.symm

/-- The same state with another IR, `fault_addr` and failed signal. -/
def State.withRecord (s : State) (ir : Word32) (a : Word64) (c : Option ControlSignal) : State :=
  { s with ir := ir, faultAddr := a, failedSignal := c }

theorem ArchSame.exists_eq {s s' : State} (h : ArchSame s s') :
    ∃ ir a c u, s' = { s.withRecord ir a c with cyc := u } := by
  obtain ⟨hx, hsp, hpc, hstatus, hmem, hsize, hfin, hstop⟩ := h
  refine ⟨s'.ir, s'.faultAddr, s'.failedSignal, s'.cyc, ?_⟩
  simp only [State.withRecord, ← hx, ← hsp, ← hpc, ← hstatus, ← hmem, ← hsize, ← hfin, ← hstop]

theorem ArchSame.withRecord (s : State) (ir : Word32) (a : Word64) (c : Option ControlSignal) :
    ArchSame s (s.withRecord ir a c) := ⟨rfl, rfl, rfl, rfl, rfl, rfl, rfl, rfl⟩

theorem ArchSame.regsSame {s s' : State} (h : ArchSame s s') : RegsSame s s' := by
  obtain ⟨hx, hsp, -⟩ := h
  exact read64_congr hx hsp

/-- A failure leaves two such states alike: what it records is not compared. -/
theorem ArchSame.raise {s s' : State} (h : ArchSame s s') (f f' : Failure)
    (hf : (s'.raise f').status = (s.raise f).status) : ArchSame (s.raise f) (s'.raise f') := by
  obtain ⟨hx, hsp, hpc, -, hmem, hhost⟩ := h
  exact ⟨by simpa using hx, by simpa using hsp, by simpa using hpc, hf, by simpa using hmem,
    by simpa [HostSame] using hhost⟩

/-- Memory-Access reads neither IR nor what a failure records. -/
theorem memoryStage_withRecord (op : MemOp) (addr : Word64) (dest : RegRef) (s : State) (ir : Word32) (a : Word64)
    (c : Option ControlSignal) :
    memoryStage op addr dest (s.withRecord ir a c) = (memoryStage op addr dest s).map (·.withRecord ir a c) := by
  have hregs : (s.withRecord ir a c).readRef dest = s.readRef dest := readRef_congr rfl rfl dest
  have hread (n : Nat) : (s.withRecord ir a c).memRead addr n = s.memRead addr n := rfl
  have hwrite (n : Nat) (v : BitVec (8 * n)) :
      (s.withRecord ir a c).memWrite addr n v = (s.memWrite addr n v).map (·.withRecord ir a c) := by
    obtain ⟨hok, h⟩ | ⟨hno, h⟩ := s.memWrite_cases addr n v
    · rw [h]; exact State.memWrite_ok v hok
    · rw [h]; exact State.memWrite_fail v hno
  cases op with
  | none => rfl
  | read32 =>
    simp only [memoryStage, hread]
    cases s.memRead addr 4 <;> rfl
  | read64 =>
    simp only [memoryStage, hread]
    cases s.memRead addr 8 <;> rfl
  | write32 => simp only [memoryStage, hregs]; exact hwrite 4 _
  | write64 => simp only [memoryStage, hregs]; exact hwrite 8 _

/-- Write-back reads neither IR nor what a failure records. -/
theorem writeBackStage_withRecord (bd : Bundle) (r : Word64) (dest : RegRef) (s : State) (ir : Word32) (a : Word64)
    (c : Option ControlSignal) :
    writeBackStage bd r dest (s.withRecord ir a c) = (writeBackStage bd r dest s).withRecord ir a c := by
  have hwrite (v : Word64) : (s.withRecord ir a c).writeRef dest v = (s.writeRef dest v).withRecord ir a c := by
    obtain ⟨q, w⟩ := dest
    cases q <;> cases w <;> rfl
  cases h : bd.writeBackOp with
  | none => simp only [writeBackStage, h]
  | registerWrite => simp only [writeBackStage, h]; exact hwrite _

/-- The shared stages on the same decoder output take such states to such states: the transients are written afresh. -/
theorem runStages_archSame (d : DecoderOutput) {s s' : State} (h : ArchSame s s') :
    ∃ t t', runStages d s = .next t ∧ runStages d s' = .next t' ∧ ArchSame t t' := by
  obtain ⟨ir, a, c, u, rfl⟩ := h.exists_eq
  cases hex : executeStage d.bundle d.a d.b with
  | error f =>
    refine ⟨_, _, runStages_execute_error _ hex, runStages_execute_error _ hex, ?_⟩
    exact (ArchSame.withRecord (s.latchDecode d) ir a c).raise f f (by cases f <;> rfl)
  | ok r =>
    have hm' := memoryStage_withRecord d.bundle.memOp r d.dest ((s.latchDecode d).latchALU r) ir a c
    cases hm : memoryStage d.bundle.memOp r d.dest ((s.latchDecode d).latchALU r) with
    | error f =>
      rw [hm] at hm'
      refine ⟨_, _, runStages_memory_error hex hm, runStages_memory_error hex hm', ?_⟩
      exact (ArchSame.withRecord ((s.latchDecode d).latchALU r) ir a c).raise f f (by cases f <;> rfl)
    | ok v =>
      rw [hm] at hm'
      refine ⟨_, _, runStages_eq_next hex hm, runStages_eq_next hex hm', ?_⟩
      have hwb := writeBackStage_withRecord d.bundle r d.dest (v.enterStage .writeBack) ir a c
      exact hwb ▸ ArchSame.withRecord _ ir a c

/-- An instruction's meaning asks of a state, before the shared stages, its registers only: the decoder output is the
same, or missing, on states whose registers agree. -/
theorem exec_stages_congr (i : Instr) {s s' : State} (h : RegsSame s s') :
    (exec i s = .next (s.raise (.decode s.ir)) ∧ exec i s' = .next (s'.raise (.decode s'.ir))) ∨
    ∃ d, exec i s = runStages d s ∧ exec i s' = runStages d s' := by
  have h32 (r : Reg) : s'.read32 r = s.read32 r := by rw [State.read32, State.read32, h r]
  cases i with
  | subImmX rd rn imm12 =>
    simp only [exec, execSubImmX, h rn]
    exact .inr ⟨_, rfl, rfl⟩
  | ldrUimmW rt rn imm12 =>
    simp only [exec, execLdrUimmW, h rn]
    exact .inr ⟨_, rfl, rfl⟩
  | ldrUimmX rt rn imm12 =>
    simp only [exec, execLdrUimmX, h rn]
    exact .inr ⟨_, rfl, rfl⟩
  | ldrswUimm rt rn imm12 =>
    simp only [exec, execLdrswUimm, h rn]
    exact .inr ⟨_, rfl, rfl⟩
  | strUimmW rt rn imm12 =>
    simp only [exec, execStrUimmW, h rn]
    exact .inr ⟨_, rfl, rfl⟩
  | strUimmX rt rn imm12 =>
    simp only [exec, execStrUimmX, h rn]
    exact .inr ⟨_, rfl, rfl⟩
  | addSregW rd rn rm shift imm6 =>
    simp only [exec, execAddSregW, h32]
    cases shiftedOperand shift imm6 (s.read32 rm) with
    | none => exact .inl ⟨rfl, rfl⟩
    | some v => exact .inr ⟨_, rfl, rfl⟩
  | ldrRegW rt rn rm option scaled =>
    simp only [exec, execLdrRegW, h rn, h rm]
    cases extendedOffset 2 option scaled (s.read64 rm) with
    | none => exact .inl ⟨rfl, rfl⟩
    | some off => exact .inr ⟨_, rfl, rfl⟩
  | ldrRegX rt rn rm option scaled =>
    simp only [exec, execLdrRegX, h rn, h rm]
    cases extendedOffset 3 option scaled (s.read64 rm) with
    | none => exact .inl ⟨rfl, rfl⟩
    | some off => exact .inr ⟨_, rfl, rfl⟩

theorem exec_archSame (i : Instr) {s s' : State} (h : ArchSame s s') :
    ∃ t t', exec i s = .next t ∧ exec i s' = .next t' ∧ ArchSame t t' := by
  obtain ⟨hex, hex'⟩ | ⟨d, hex, hex'⟩ := exec_stages_congr i h.regsSame
  · exact ⟨_, _, hex, hex', h.raise _ _ rfl⟩
  · rw [hex, hex']
    exact runStages_archSame d h

theorem step_archSame {s s' : State} (h : ArchSame s s') :
    ∃ t t', step s = .next t ∧ step s' = .next t' ∧ ArchSame t t' := by
  obtain ⟨ir, a, c, u, rfl⟩ := h.exists_eq
  by_cases hrun : s.status = .running
  · cases hfin : s.finishedSampled with
    | true =>
      refine ⟨_, _, step_of_finished hrun hfin, step_of_finished hrun hfin, ?_⟩
      exact ArchSame.withRecord { s with status := .finished } ir a c
    | false =>
      have hs : s.cycleStarts := ⟨hrun, hfin⟩
      have hs' : ({ s.withRecord ir a c with cyc := u } : State).cycleStarts := ⟨hrun, hfin⟩
      obtain ⟨hpc, hstep⟩ | ⟨hpc, e, hdec, hstep⟩ | ⟨hpc, i, hdec, hstep⟩ := cycle_cases hs
      · refine ⟨_, _, hstep, step_of_bad_pc hs' hpc, ?_⟩
        exact (ArchSame.withRecord s.beginCycle ir a c).raise _ _ rfl
      · refine ⟨_, _, hstep, step_of_decode_error hs' hpc hdec, ?_⟩
        exact (ArchSame.withRecord s.fetched s.fetched.ir a c).raise _ _ rfl
      · rw [hstep, step_of_decode hs' hpc hdec]
        exact exec_archSame i (ArchSame.withRecord s.fetched s.fetched.ir a c)
  · exact ⟨_, _, step_halted hrun, step_halted hrun, h⟩

/-- Settles O57, by induction on the number of steps. -/
theorem unspecifiedStartValuesNeverMatter : Obligations.UnspecifiedStartValuesNeverMatter := by
  intro n
  induction n with
  | zero => exact fun s s' h => ⟨s, s', rfl, rfl, h⟩
  | succ n ih =>
    intro s s' h
    obtain ⟨t, t', hstep, hstep', ht⟩ := step_archSame h
    rw [run_succ_of_next hstep, run_succ_of_next hstep']
    exact ih t t' ht

end Sys2Proof.Machine
end

section
/-! PROOFS. The canonical form of memory (log 4), the start of a run (70_reset_and_hazards.md R230 to R232), and the
run-result codes (60_exceptions.md R200, R216). -/

namespace Sys2Proof.Machine

/-! ### The canonical form -/

theorem Memory.risesFrom_cons {lo a : Nat} {b : Byte} {m : Memory} :
    Memory.risesFrom lo ((a, b) :: m) = true ↔ lo ≤ a ∧ b ≠ 0#8 ∧ m.risesFrom (a + 1) = true := by
  simp [Memory.risesFrom, and_assoc]

/-- An address below those listed reads 0. -/
theorem Memory.byte_eq_zero_of_lt {m : Memory} :
    ∀ {lo a : Nat}, m.risesFrom lo = true → a < lo → m.byte a = 0#8 := by
  induction m with
  | nil => exact fun _ _ => rfl
  | cons e m ih =>
    obtain ⟨c, d⟩ := e
    intro lo a h ha
    obtain ⟨hlo, -, hm⟩ := Memory.risesFrom_cons.mp h
    rw [Memory.byte_cons, if_neg (by omega), ih hm (by omega)]

/-- The first listed address of a memory in the form does not read 0. -/
theorem Memory.byte_head_ne_zero {lo c : Nat} {d : Byte} {m : Memory} (h : Memory.risesFrom lo ((c, d) :: m) = true) :
    Memory.byte ((c, d) :: m) c ≠ 0#8 := by
  obtain ⟨-, hd, -⟩ := Memory.risesFrom_cons.mp h
  rwa [Memory.byte_cons, if_pos rfl]

/-- Of two memories that read alike neither begins below the other. -/
theorem Memory.head_le_of_byte_eq {lo c c' : Nat} {d d' : Byte} {m m' : Memory}
    (h : Memory.risesFrom lo ((c, d) :: m) = true) (h' : Memory.risesFrom lo ((c', d') :: m') = true)
    (heq : ∀ a, Memory.byte ((c, d) :: m) a = Memory.byte ((c', d') :: m') a) : c' ≤ c := by
  by_contra hlt
  obtain ⟨-, hd', hm'⟩ := Memory.risesFrom_cons.mp h'
  have hself : Memory.risesFrom c' ((c', d') :: m') = true := Memory.risesFrom_cons.mpr ⟨le_rfl, hd', hm'⟩
  exact Memory.byte_head_ne_zero h ((heq c).trans (Memory.byte_eq_zero_of_lt hself (by omega)))

theorem Memory.ext_of_risesFrom (m : Memory) : ∀ (m' : Memory) (lo : Nat), m.risesFrom lo = true →
    m'.risesFrom lo = true → (∀ a, m.byte a = m'.byte a) → m = m' := by
  induction m with
  | nil =>
    intro m' lo _ h' heq
    cases m' with
    | nil => rfl
    | cons e' m' => exact absurd (heq e'.1).symm (Memory.byte_head_ne_zero h')
  | cons e m ih =>
    intro m' lo h h' heq
    cases m' with
    | nil => exact absurd (heq e.1) (Memory.byte_head_ne_zero h)
    | cons e' m' =>
      obtain ⟨c, d⟩ := e
      obtain ⟨c', d'⟩ := e'
      obtain rfl : c = c' :=
        le_antisymm (Memory.head_le_of_byte_eq h' h fun a => (heq a).symm) (Memory.head_le_of_byte_eq h h' heq)
      obtain rfl : d = d' := by simpa [Memory.byte_cons] using heq c
      obtain ⟨-, -, hm⟩ := Memory.risesFrom_cons.mp h
      obtain ⟨-, -, hm'⟩ := Memory.risesFrom_cons.mp h'
      have htail (a : Nat) : Memory.byte m a = Memory.byte m' a := by
        by_cases ha : a = c
        · rw [Memory.byte_eq_zero_of_lt hm (by omega), Memory.byte_eq_zero_of_lt hm' (by omega)]
        · simpa only [Memory.byte_cons, if_neg ha] using heq a
      rw [ih m' (c + 1) hm hm' htail]

/-- Settles O45, by induction on the lists. -/
theorem memoriesThatReadAlikeAreEqual : Obligations.MemoriesThatReadAlikeAreEqual :=
  fun m m' h h' heq => m.ext_of_risesFrom m' 0 h h' heq

/-! ### Reset and the start of a run -/

/-- Settles O46: the fields as they stand, and no address is listed. -/
theorem resetValues : Obligations.ResetValues := ⟨rfl, rfl, rfl, rfl, rfl, Memory.byte_nil⟩

/-- Settles O50. -/
theorem resetSatisfiesTheInvariant : Obligations.ResetSatisfiesTheInvariant :=
  ⟨rfl, rfl, by decide, by decide, fun _ => rfl, nofun⟩

/-- The image read back: its bytes from address 0 on, zeros after them. -/
theorem Memory.byte_fill_nil (image : List Byte) (a : Nat) : (Memory.fill [] 0 image).byte a = image.getD a 0#8 := by
  rw [Memory.byte_fill, Memory.byte_nil, Nat.zero_add, Nat.sub_zero]
  by_cases ha : a < image.length
  · rw [if_pos ⟨Nat.zero_le a, ha⟩]
  · rw [if_neg fun h => ha h.2, List.getD_eq_default _ _ (Nat.le_of_not_lt ha)]

/-- What the start sequence gives each field that the spec gives a value. -/
structure Started (h : Config.HostInputs) (s : State) : Prop where
  x : s.x = h.regInit
  sp : s.sp = h.spInit
  pc : s.pc = h.startPc
  status : s.status = .running
  cyc : s.cyc = .fresh
  mem : s.mem = Memory.fill [] 0 h.image
  memSize : s.memSize = h.memSize
  finishedIn : s.finishedIn = h.finished
  stopPc : s.stopPc = h.stopPc

theorem State.start_of_fits {h : Config.HostInputs} (hfits : h.image.length ≤ h.memSize) :
    ∃ s, State.start h = .ok s ∧ Started h s :=
  ⟨_, if_pos hfits, ⟨rfl, rfl, rfl, rfl, rfl, rfl, rfl, rfl, rfl⟩⟩

/-- Every started run is one of an image that fits. -/
theorem started_of_start {h : Config.HostInputs} {s : State} (hs : State.start h = .ok s) :
    h.image.length ≤ h.memSize ∧ Started h s := by
  by_cases hfits : h.image.length ≤ h.memSize
  · obtain ⟨t, ht, hstarted⟩ := State.start_of_fits hfits
    obtain rfl := Except.ok.inj (ht.symm.trans hs)
    exact ⟨hfits, hstarted⟩
  · exact nomatch (State.start_of_oversized (Nat.lt_of_not_le hfits)).symm.trans hs

/-- Settles O47. -/
theorem startSequenceValues : Obligations.StartSequenceValues := by
  intro h hfits
  obtain ⟨s, hs, hst⟩ := State.start_of_fits hfits
  have hbytes (a : Nat) : s.byteAt a = h.image.getD a 0#8 := by
    rw [State.byteAt, hst.mem, Memory.byte_fill_nil]
  exact ⟨s, hs, hbytes, hst.x, hst.sp, hst.pc, hst.status, by rw [hst.cyc]; rfl, by rw [hst.cyc]; rfl,
    by rw [hst.cyc]; rfl, hst.memSize, hst.finishedIn, hst.stopPc⟩

/-- Settles O51: the image is filled in byte by byte, inside MEM_SIZE, from the empty list. -/
theorem everyStartSatisfiesTheInvariant : Obligations.EveryStartSatisfiesTheInvariant := by
  intro h s hlegal hs
  obtain ⟨hfits, hst⟩ := started_of_start hs
  simp only [Config.HostInputs.legal, Bool.and_eq_true, decide_eq_true_eq] at hlegal
  obtain ⟨hmin, hmax⟩ := hlegal
  have hwf : s.mem.wf = true := by rw [hst.mem]; exact Memory.wf_fill h.image [] 0 rfl
  have hbelow : s.mem.below s.memSize = true := by
    rw [hst.mem, hst.memSize]
    exact Memory.below_fill h.image [] 0 (by omega) rfl
  exact ⟨hwf, hbelow, hst.memSize ▸ hmin, hst.memSize ▸ hmax, fun _ => by rw [hst.cyc]; rfl,
    fun hfail => nomatch hst.status.symm.trans hfail⟩

/-- Settles O49: the start accepts START_PC as it is, and the first cycle, which starts, fails at its fetch. -/
theorem badStartPcFailsAtTheFirstFetch : Obligations.BadStartPcFailsAtTheFirstFetch := by
  intro h hfits hfin hstop hbad
  obtain ⟨s, hs, hst⟩ := State.start_of_fits hfits
  have hcycle : s.cycleStarts := by
    refine ⟨hst.status, ?_⟩
    rw [← Bool.not_eq_true, finishedSampled_iff, hst.finishedIn, hst.stopPc, hst.pc, hfin]
    exact fun hor => hor.elim Bool.false_ne_true hstop
  obtain ⟨t, hstep, hstatus, haddr, -⟩ := failedFetchStopsTheRun s hcycle (by rw [hst.pc, hst.memSize]; exact hbad)
  exact ⟨s, t, hs, hstep, hstatus, haddr.trans hst.pc⟩

/-! ### Run-result codes -/

/-- Settles O56, status by status. -/
theorem runResultCodes : Obligations.RunResultCodes := by
  refine ⟨rfl, rfl, rfl, rfl, rfl, fun st => ?_⟩
  cases st <;> simp [Status.failed, Status.resultCode]

end Sys2Proof.Machine
end
